-- ==== Sys2Proof/Word.lean ====
section
/-! DEFINITION. The word and the bit-set value of the BitFields CORE engine (spec/00_scope.md R5, R6). -/

namespace Sys2Proof

/-- A 32-bit word (`WORD_BITS = 32`, R5; `ARG_BITS = 32` and `HASH_BITS = 32` too). Bit `j` has weight `2^j` (R6). -/
abbrev Word := BitVec 32

/-- A bit-set value: its words, word 0 first (R6, R20). The `N` of a value is the length of the list (log entry 1). -/
abbrev BitSet := List Word

end Sys2Proof
end

