-- ==== Sys2Proof/Config.lean ====
section
/-! DEFINITION. What an implementation fixes (spec/00_scope.md R5) and what the spec leaves open. -/

namespace Sys2Proof.Config

/-- `N` of the engine that `State.reset` describes. DESIGN CHOICE (log entry 1): R5 gives `1 <= N <= 67108863`
and names 4 and 6 as typical; every meaning takes its `N` from the state, so claims over all states cover every `N`. -/
def wordCount : Nat := 4

/-- The largest `N` an engine can be built with (R5). -/
def maxWordCount : Nat := 67108863

/-- `HASH_SEED`, at R5's default (log entry 2). -/
def hashSeed : Word := 17#32

/-- `HASH_MULT`, at R5's default (log entry 2). -/
def hashMult : Word := 31#32

/-- `wordHash`, the identity (spec/45_compare_hash.md R221; log entry 2). -/
def wordHash (x : Word) : Word := x

/-- Word `j` of `W` at power-up number `k`, before the first reset: unspecified, and two power-ups may differ
(spec/70_reset_and_hazards.md R282). A free value: it has no body (log entry 8). -/
opaque powerUpWord (k j : Nat) : Word

/-- `BSE_BASE`, the engine's place in a larger system's address map: OPEN, owned by the integrating system
(spec/20_memory.md R56). No rule reads it (log entry 12). -/
opaque bseBase : Nat

end Sys2Proof.Config
end

