-- ==== Sys2Proof/Machine/Value.lean ====
section
/-! DEFINITION. Bit-set values: words, bits, the word-wise lifts and the flat bus (spec/00_scope.md R6-R10). -/

namespace Sys2Proof

/-- `V[j]` (R6). A word the value does not have reads 0: 44_shift.md R194 ("positions with no valid source"). -/
def wordAt (v : BitSet) (j : Nat) : Word := v.getD j 0#32

/-- The value of `n` words whose word `j` is `f j`: every rule of the form `V[j] = … for 0 <= j < N`. -/
def ofWords (n : Nat) (f : Nat → Word) : BitSet := (List.range n).map f

/-- `BIT_COUNT = 32*N` (R5). -/
def bitCount (n : Nat) : Nat := 32 * n

/-- `bit(V, i) = V[i div 32][i mod 32]` (R6). -/
def bitAt (v : BitSet) (i : Nat) : Bool := (wordAt v (i / 32)).getLsbD (i % 32)

/-- The word whose bit `b` is `f b` (R6). -/
def wordOfBits (f : Nat → Bool) : Word := BitVec.ofFnLE fun b : Fin 32 => f b.val

/-- The value of `n` words whose bit `i` is `f i` for `0 <= i < 32*n` (R6). -/
def ofBits (n : Nat) (f : Nat → Bool) : BitSet :=
  ofWords n fun j => wordOfBits fun b => f (32 * j + b)

/-- `ZERO`, every word 0: the document's `none` (R10). -/
def zeros (n : Nat) : BitSet := ofWords n fun _ => 0#32

/-- `ONES`, every word `~0x00000000`: the document's `all` (R10, 40_construct.md R102). -/
def ones (n : Nat) : BitSet := ofWords n fun _ => ~~~0#32

/-- The word-wise lift of a unary word operation (R10). -/
def lift1 (f : Word → Word) (v : BitSet) : BitSet := ofWords v.length fun j => f (wordAt v j)

/-- The word-wise lift `(V op M)[j] = V[j] op M[j]` for `0 <= j < N` (R10). It has the `N` words of `v`. -/
def lift2 (f : Word → Word → Word) (v m : BitSet) : BitSet :=
  ofWords v.length fun j => f (wordAt v j) (wordAt m j)

/-- The flat bus that carries a value: word `j` on bus bits `[32j+31 : 32j]` (R7). -/
def toBus : BitSet → Nat
  | [] => 0
  | x :: v => x.toNat + 2 ^ 32 * toBus v

/-- The value of `n` words that a flat bus carries: `V[j]` is bus bits `[32j+31 : 32j]` (R7, 30_encoding.md R74). -/
def ofBus (n b : Nat) : BitSet := ofWords n fun j => BitVec.ofNat 32 (b >>> (32 * j))

end Sys2Proof
end

