-- ==== Sys2Proof/Syntax.lean ====
section
/-! DEFINITION. The commands of BSE-CMD v1, one constructor per row of spec/opcode_table.json
(spec/30_encoding.md R75), and the command triple as the ports carry it (R70). -/

namespace Sys2Proof

/-- A decoded command. `wb` is the `WB` bit of a class-W command: `true` is the mutator form, which writes `W`;
`false` is the value form, which shows its result on `RES_VEC` only (R71, R76). `arg` is the `ARG` pattern of a
format FI or FC command (R73), `m` the value on `MASK` of a format FM command (R74). -/
inductive Instr where
  | nop
  | get (arg : Word)
  | set (wb : Bool) (arg : Word)
  | unset (wb : Bool) (arg : Word)
  | flip (wb : Bool) (arg : Word)
  | clear (wb : Bool)
  | fill (wb : Bool)
  | load (wb : Bool) (m : BitSet)
  | and (wb : Bool) (m : BitSet)
  | andnot (wb : Bool) (m : BitSet)
  | nand (wb : Bool) (m : BitSet)
  | or (wb : Bool) (m : BitSet)
  | ornot (wb : Bool) (m : BitSet)
  | nor (wb : Bool) (m : BitSet)
  | xor (wb : Bool) (m : BitSet)
  | xornot (wb : Bool) (m : BitSet)
  | notxor (wb : Bool) (m : BitSet)
  | not (wb : Bool)
  | shift (wb : Bool) (arg : Word)
  | eq (m : BitSet)
  | isempty
  | hasall (m : BitSet)
  | hasany (m : BitSet)
  | hasnone (m : BitSet)
  | hash
  deriving DecidableEq, Repr

/-- The triple `(CMD, ARG, MASK)` presented in one cycle (R70). The `32*N`-bit bus `MASK` is held by its words:
word `j` is bus bits `[32j+31 : 32j]` (spec/00_scope.md R7). -/
structure Command where
  cmd : BitVec 8
  arg : Word
  mask : BitSet
  deriving DecidableEq, Repr

/-- The four operand formats (R72). -/
inductive Format where
  | f0
  | fi
  | fc
  | fm
  deriving DecidableEq, Repr

end Sys2Proof
end

