-- ==== Sys2Proof/Decode.lean ====
section
/-! DEFINITION. The command decoder and encoder (spec/30_encoding.md R70-R80). -/

namespace Sys2Proof

/-- Why a `CMD` value is illegal: the three grounds of R77, in R77's order. Every one of them raises
IllegalCommand (spec/60_exceptions.md R253). -/
inductive DecodeError where
  /-- `RSV != 00`. -/
  | reservedBits
  /-- `OP` is `0x12`, `0x13`, `0x15`-`0x17`, `0x1E` or `0x1F`. -/
  | reservedOpcode
  /-- `WB = 1` on a class-R opcode. -/
  | writeBackOnReader
  deriving DecidableEq, Repr

/-- `OP = CMD[4:0]` (R71). -/
def opField (cmd : BitVec 8) : Nat := (cmd.extractLsb' 0 5).toNat

/-- `WB = CMD[5]` (R71). -/
def wbField (cmd : BitVec 8) : Bool := cmd.getLsbD 5

/-- `RSV = CMD[7:6]` (R71). -/
def rsvField (cmd : BitVec 8) : Nat := (cmd.extractLsb' 6 2).toNat

/-- The operand `M` that an engine of `n` words reads from `MASK`: its words `0..n-1` (R74). -/
def maskValue (n : Nat) (c : Command) : BitSet := ofWords n (wordAt c.mask)

/-- A class-R opcode requires `WB = 0` (R75, R77). -/
def readerForm (wb : Bool) (i : Instr) : Except DecodeError Instr :=
  if wb then .error .writeBackOnReader else .ok i

/-- The decoder of an engine of `n` words: total, rejecting by the ground of R77. -/
def decode (n : Nat) (c : Command) : Except DecodeError Instr :=
  if rsvField c.cmd ≠ 0 then .error .reservedBits
  else
    let wb := wbField c.cmd
    let m := maskValue n c
    match opField c.cmd with
    | 0x00 => readerForm wb .nop
    | 0x01 => readerForm wb (.get c.arg)
    | 0x02 => .ok (.set wb c.arg)
    | 0x03 => .ok (.unset wb c.arg)
    | 0x04 => .ok (.flip wb c.arg)
    | 0x05 => .ok (.clear wb)
    | 0x06 => .ok (.fill wb)
    | 0x07 => .ok (.load wb m)
    | 0x08 => .ok (.and wb m)
    | 0x09 => .ok (.andnot wb m)
    | 0x0A => .ok (.nand wb m)
    | 0x0B => .ok (.or wb m)
    | 0x0C => .ok (.ornot wb m)
    | 0x0D => .ok (.nor wb m)
    | 0x0E => .ok (.xor wb m)
    | 0x0F => .ok (.xornot wb m)
    | 0x10 => .ok (.notxor wb m)
    | 0x11 => .ok (.not wb)
    | 0x14 => .ok (.shift wb c.arg)
    | 0x18 => readerForm wb (.eq m)
    | 0x19 => readerForm wb .isempty
    | 0x1A => readerForm wb (.hasall m)
    | 0x1B => readerForm wb (.hasany m)
    | 0x1C => readerForm wb (.hasnone m)
    | 0x1D => readerForm wb .hash
    | _ => .error .reservedOpcode

/-- R77's three grounds, on `CMD` alone (R79), written from the rule's own lists and not from the decoder. -/
def illegalCmd (cmd : BitVec 8) : Bool :=
  rsvField cmd != 0
    || [0x12, 0x13, 0x15, 0x16, 0x17, 0x1E, 0x1F].contains (opField cmd)
    || ([0x00, 0x01, 0x18, 0x19, 0x1A, 0x1B, 0x1C, 0x1D].contains (opField cmd) && wbField cmd)

/-- The operation code of each command (R75). -/
def Instr.opcode : Instr → BitVec 5
  | .nop => 0x00#5
  | .get _ => 0x01#5
  | .set _ _ => 0x02#5
  | .unset _ _ => 0x03#5
  | .flip _ _ => 0x04#5
  | .clear _ => 0x05#5
  | .fill _ => 0x06#5
  | .load _ _ => 0x07#5
  | .and _ _ => 0x08#5
  | .andnot _ _ => 0x09#5
  | .nand _ _ => 0x0A#5
  | .or _ _ => 0x0B#5
  | .ornot _ _ => 0x0C#5
  | .nor _ _ => 0x0D#5
  | .xor _ _ => 0x0E#5
  | .xornot _ _ => 0x0F#5
  | .notxor _ _ => 0x10#5
  | .not _ => 0x11#5
  | .shift _ _ => 0x14#5
  | .eq _ => 0x18#5
  | .isempty => 0x19#5
  | .hasall _ => 0x1A#5
  | .hasany _ => 0x1B#5
  | .hasnone _ => 0x1C#5
  | .hash => 0x1D#5

/-- The `WB` bit of each command; a class-R command has `WB = 0` (R75, R76). -/
def Instr.writeBack : Instr → Bool
  | .nop => false
  | .get _ => false
  | .set wb _ => wb
  | .unset wb _ => wb
  | .flip wb _ => wb
  | .clear wb => wb
  | .fill wb => wb
  | .load wb _ => wb
  | .and wb _ => wb
  | .andnot wb _ => wb
  | .nand wb _ => wb
  | .or wb _ => wb
  | .ornot wb _ => wb
  | .nor wb _ => wb
  | .xor wb _ => wb
  | .xornot wb _ => wb
  | .notxor wb _ => wb
  | .not wb => wb
  | .shift wb _ => wb
  | .eq _ => false
  | .isempty => false
  | .hasall _ => false
  | .hasany _ => false
  | .hasnone _ => false
  | .hash => false

/-- Class W, the writing commands, or class R (R76). -/
def Instr.isWriting : Instr → Bool
  | .nop => false
  | .get _ => false
  | .set _ _ => true
  | .unset _ _ => true
  | .flip _ _ => true
  | .clear _ => true
  | .fill _ => true
  | .load _ _ => true
  | .and _ _ => true
  | .andnot _ _ => true
  | .nand _ _ => true
  | .or _ _ => true
  | .ornot _ _ => true
  | .nor _ _ => true
  | .xor _ _ => true
  | .xornot _ _ => true
  | .notxor _ _ => true
  | .not _ => true
  | .shift _ _ => true
  | .eq _ => false
  | .isempty => false
  | .hasall _ => false
  | .hasany _ => false
  | .hasnone _ => false
  | .hash => false

/-- The operand format of each command (R72). -/
def Instr.format : Instr → Format
  | .nop => .f0
  | .get _ => .fi
  | .set _ _ => .fi
  | .unset _ _ => .fi
  | .flip _ _ => .fi
  | .clear _ => .f0
  | .fill _ => .f0
  | .load _ _ => .fm
  | .and _ _ => .fm
  | .andnot _ _ => .fm
  | .nand _ _ => .fm
  | .or _ _ => .fm
  | .ornot _ _ => .fm
  | .nor _ _ => .fm
  | .xor _ _ => .fm
  | .xornot _ _ => .fm
  | .notxor _ _ => .fm
  | .not _ => .f0
  | .shift _ _ => .fc
  | .eq _ => .fm
  | .isempty => .f0
  | .hasall _ => .fm
  | .hasany _ => .fm
  | .hasnone _ => .fm
  | .hash => .f0

/-- What an encoder drives on `ARG`: the index or the count, and 0 where the format does not read it (R72, R81). -/
def Instr.argBus : Instr → Word
  | .nop => 0#32
  | .get a => a
  | .set _ a => a
  | .unset _ a => a
  | .flip _ a => a
  | .clear _ => 0#32
  | .fill _ => 0#32
  | .load _ _ => 0#32
  | .and _ _ => 0#32
  | .andnot _ _ => 0#32
  | .nand _ _ => 0#32
  | .or _ _ => 0#32
  | .ornot _ _ => 0#32
  | .nor _ _ => 0#32
  | .xor _ _ => 0#32
  | .xornot _ _ => 0#32
  | .notxor _ _ => 0#32
  | .not _ => 0#32
  | .shift _ a => a
  | .eq _ => 0#32
  | .isempty => 0#32
  | .hasall _ => 0#32
  | .hasany _ => 0#32
  | .hasnone _ => 0#32
  | .hash => 0#32

/-- What an encoder drives on the `MASK` of an engine of `n` words: the operand `M`, and 0 where the format does
not read the bus (R72, R81). -/
def Instr.maskBus (n : Nat) : Instr → BitSet
  | .nop => zeros n
  | .get _ => zeros n
  | .set _ _ => zeros n
  | .unset _ _ => zeros n
  | .flip _ _ => zeros n
  | .clear _ => zeros n
  | .fill _ => zeros n
  | .load _ m => m
  | .and _ m => m
  | .andnot _ m => m
  | .nand _ m => m
  | .or _ m => m
  | .ornot _ m => m
  | .nor _ m => m
  | .xor _ m => m
  | .xornot _ m => m
  | .notxor _ m => m
  | .not _ => zeros n
  | .shift _ _ => zeros n
  | .eq m => m
  | .isempty => zeros n
  | .hasall m => m
  | .hasany m => m
  | .hasnone m => m
  | .hash => zeros n

/-- `CMD` from its fields, `RSV` at 00: bits 7:6, 5 and 4:0 (R71). -/
def cmdWord (wb : Bool) (op : BitVec 5) : BitVec 8 := 0#2 ++ BitVec.ofBool wb ++ op

/-- The command triple of a command on an engine of `n` words (R70, R71, R75). -/
def encode (n : Nat) (i : Instr) : Command where
  cmd := cmdWord i.writeBack i.opcode
  arg := i.argBus
  mask := i.maskBus n

/-- A command as one number: bits 7:0 are `CMD`, as spec/opcode_table.json numbers them; `ARG` is bits 39:8 and
`MASK` the `32*n` bits from 40 on. The place of `ARG` and `MASK` in it is a DESIGN CHOICE (log entry 10): the spec
has separate buses and no such number. -/
def commandOfBits (n w : Nat) : Command where
  cmd := BitVec.ofNat 8 w
  arg := BitVec.ofNat 32 (w >>> 8)
  mask := ofBus n (w >>> 40)

/-- The command that the decoder of the engine `State.reset` describes reads from the low `nbits` bits of `w`, every
bit above them 0. -/
def decodeTableWord (nbits w : Nat) : Option Instr :=
  (decode Config.wordCount (commandOfBits Config.wordCount (w % 2 ^ nbits))).toOption

end Sys2Proof
end

