-- ==== Sys2Proof/Machine/State.lean ====
section
/-! DEFINITION. The engine's state: the register `W`, the input cycles the host will drive, and the settled outputs
of the last cycle (spec/10_state.md R20-R30, spec/70_reset_and_hazards.md R280-R283). -/

namespace Sys2Proof.Machine

/-- The input ports in one cycle, at defined levels (R23). -/
structure PortInputs where
  /-- `RST`. -/
  rst : Bool
  /-- `CMD_VALID`. -/
  cmdValid : Bool
  /-- `CMD`, `ARG` and `MASK`. -/
  command : Command
  deriving DecidableEq, Repr

/-- One cycle as the host drives it. -/
inductive HostCycle where
  /-- Every input at a defined level, stable around the edge (70_reset_and_hazards.md R285). -/
  | driven (p : PortInputs)
  /-- An input at no defined level, or setup or hold violated: the host breaks R285 (log entry 6). -/
  | undefinedLevels
  deriving DecidableEq, Repr

/-- The output ports in one cycle, settled (R23, R25). -/
structure Outputs where
  /-- `RES_VEC`. -/
  resVec : BitSet
  /-- `RES_BIT`. -/
  resBit : Bool
  /-- `RES_FLAG`. -/
  resFlag : Bool
  /-- `RES_HASH`. -/
  resHash : Word
  /-- `ERR`. -/
  err : Bool
  /-- `ERR_CODE`. -/
  errCode : BitVec 2
  /-- `Q` during the cycle: `W` before the edge that ends it (R25). -/
  q : BitSet
  deriving DecidableEq, Repr

/-- One engine. `w` is the architectural state, the register `W` (R20); its length is the engine's `N` (log entry
1). `pending` and `out` are the model's own: what the host will drive, oldest first (log entry 3), and what the
outputs showed in the last cycle (log entry 5). -/
structure State where
  w : BitSet
  pending : List HostCycle
  out : Outputs
  deriving DecidableEq, Repr

/-- Nothing stops the engine with a fault: an error of the spec is reported in its cycle and the engine goes on
(60_exceptions.md R254, R257; log entry 14). So there is no constructor. -/
inductive Fault : Type
  deriving DecidableEq, Repr

/-- Why a step has no meaning. -/
inductive Refusal where
  /-- An arm of `exec` without a meaning yet. Safe. No arm raises it. -/
  | notModelled (mnemonic : String)
  /-- Raised by `step` on a cycle with undefined input levels: undefined, and 93_implementation_defined.md says
  `refuse` (R285; log entry 6). Safe. -/
  | undefinedInputLevels
  /-- Raised by `step` on a state whose word count is outside `[1, 67108863]`: no engine is built with it (R5,
  92_eei_decisions.md D2; log entry 7). Safe. -/
  | unsupportedWordCount
  deriving DecidableEq, Repr

/-- `Q`, driven directly from `W` at all times (R24). -/
def State.q (s : State) : BitSet := s.w

/-- An engine of `n` words right after reset: `W = ZERO`, every output 0 (R280, R281), nothing pending. -/
def State.resetOf (n : Nat) : State where
  w := zeros n
  pending := []
  out := { resVec := zeros n, resBit := false, resFlag := false, resHash := 0#32, err := false, errCode := 0#2,
           q := zeros n }

/-- The machine right after reset, with `N = Config.wordCount` (log entry 1). -/
def State.reset : State := State.resetOf Config.wordCount

/-- An engine of `n` words after power-up number `k`, before its first reset: each bit of `W` may hold any value
(R282; log entry 8). The record of outputs is that of no cycle yet, and no rule reads it. -/
def State.powerUp (k n : Nat) : State := { State.resetOf n with w := ofWords n (Config.powerUpWord k) }

end Sys2Proof.Machine
end

