-- ==== Sys2Proof/Machine/Flags.lean ====
section
/-! DEFINITION. What drives `RES_BIT`, `RES_FLAG` and `RES_HASH` (spec/10_state.md R27): the bit test, the
word-parallel comparator with its reductions, and the hash chain (spec/43_query.md, spec/45_compare_hash.md). -/

namespace Sys2Proof.Machine

/-- `V == M`: the `N` word comparators and their AND (00_scope.md R10, R220). -/
def equalValues (v m : BitSet) : Bool := (List.range v.length).all fun j => wordAt v j == wordAt m j

/-- The comparator against `ZERO` (R170). -/
def isZero (v : BitSet) : Bool := equalValues v (zeros v.length)

/-- The AND lanes that feed the queries (R170). -/
def andLanes (v m : BitSet) : BitSet := lift2 (· &&& ·) v m

/-- HASALL: `(W & M) == M` (R172). -/
def hasAllOf (v m : BitSet) : Bool := equalValues (andLanes v m) m

/-- HASANY: not `(W & M) == ZERO` (R173). -/
def hasAnyOf (v m : BitSet) : Bool := !isZero (andLanes v m)

/-- HASNONE: `(W & M) == ZERO` (R174). -/
def hasNoneOf (v m : BitSet) : Bool := isZero (andLanes v m)

/-- GET's test: `(word & mask) = mask` (R122). -/
def bitTest (x mask : Word) : Bool := x &&& mask == mask

/-- One stage of the hash chain: `h = HASH_MULT * h + wordHash(x)`, modulo `2^32` (R221). -/
def hashStage (h x : Word) : Word := Config.hashMult * h + Config.wordHash x

/-- The hash chain over the words in order, from `HASH_SEED` (R221). -/
def hashValue (v : BitSet) : Word := v.foldl hashStage Config.hashSeed

end Sys2Proof.Machine
end

