-- ==== Sys2Proof/Machine/Operands.lean ====
section
/-! DEFINITION. Operand forms: the signed index and count, the bounds check, the index decoder and the shift
magnitude (spec/30_encoding.md R73, spec/41_bit_access.md R120-R121, spec/44_shift.md R191). -/

namespace Sys2Proof.Machine

/-- `sint32(a)`: the pattern read as two's complement (00_scope.md R9, R73). -/
def sint32 (a : Word) : Int := a.toInt

/-- The bounds check of R121 passes: `0 <= i < BIT_COUNT`. -/
def inBounds (n : Nat) (i : Int) : Bool := decide (0 ≤ i) && decide (i < (bitCount n : Int))

/-- What the index decoder puts out (R120). -/
structure Location where
  /-- `wordIndex = i div 32`. -/
  wordIndex : Nat
  /-- `mask = 1 << (i mod 32)`, one-hot. -/
  mask : Word
  deriving DecidableEq, Repr

/-- `locate(i)`, used only after the bounds check (R120). -/
def locate (i : Nat) : Location where
  wordIndex := i / 32
  mask := 1#32 <<< (i % 32)

/-- `sel[j]`, the one-hot word select (R120). -/
def Location.sel (l : Location) (j : Nat) : Bool := j == l.wordIndex

/-- `V = W; V[w] = f(W[w], mask)`: only the selected word can differ (R123-R125). -/
def updateSelected (f : Word → Word → Word) (v : BitSet) (l : Location) : BitSet :=
  ofWords v.length fun j => if l.sel j then f (wordAt v j) l.mask else wordAt v j

/-- `k = |c| div 32`, the words to relocate wholesale (R191). -/
def wholeWords (c : Int) : Nat := c.natAbs / 32

/-- `s = |c| mod 32`, the bits to shift within the cross-word window (R191). -/
def subShift (c : Int) : Nat := c.natAbs % 32

end Sys2Proof.Machine
end

