-- ==== Sys2Proof/Machine/Ops.lean ====
section
/-! DEFINITION. What a cycle does to the state, said once: present a result, write `W` back, raise an error, pass an
idle or a reset cycle (spec/10_state.md R25, R27; spec/60_exceptions.md R250, R254). The engine has no memory
(20_memory.md R52), so there are no operations over one, and no return from an exception (R257). -/

namespace Sys2Proof.Machine

/-- Every output 0 but `Q`, which shows `w` (R25, R27). -/
def quiet (w : BitSet) : Outputs where
  resVec := zeros w.length
  resBit := false
  resFlag := false
  resHash := 0#32
  err := false
  errCode := 0#2
  q := w

/-- The error kinds of R250. -/
inductive ErrorKind where
  | indexOutOfRange
  | illegalCommand
  deriving DecidableEq, Repr

/-- `ERR_CODE` of each kind (R250). Code 3 is never driven. -/
def ErrorKind.code : ErrorKind → BitVec 2
  | .indexOutOfRange => 1#2
  | .illegalCommand => 2#2

/-- `raise`: `ERR = 1` and the code, every other result output 0, `W` unchanged (R254). This is all that an error
does: there is no trap entry (R257). -/
def raise (e : ErrorKind) (s : State) : State :=
  { s with out := { quiet s.w with err := true, errCode := e.code } }

/-- A cycle that names no output and writes nothing: idle, and NOP (R25, 40_construct.md R100). -/
def idle (s : State) : State := { s with out := quiet s.w }

/-- The reset cycle: every output 0, and `W <- ZERO` at its edge (R25, R280). -/
def resetCycle (s : State) : State := { s with w := zeros s.w.length, out := quiet s.w }

/-- The end of a class-W command: `RES_VEC <- V; if WB = 1: W <- V` (30_encoding.md R80). -/
def presentVec (wb : Bool) (v : BitSet) (s : State) : State :=
  { s with w := if wb then v else s.w, out := { quiet s.w with resVec := v } }

/-- `RES_BIT <- b`; `W` is unchanged (41_bit_access.md R122). -/
def presentBit (b : Bool) (s : State) : State := { s with out := { quiet s.w with resBit := b } }

/-- `RES_FLAG <- b`; `W` is unchanged (43_query.md R170, 45_compare_hash.md R220). -/
def presentFlag (b : Bool) (s : State) : State := { s with out := { quiet s.w with resFlag := b } }

/-- `RES_HASH <- h`; `W` is unchanged (45_compare_hash.md R221). -/
def presentHash (h : Word) (s : State) : State := { s with out := { quiet s.w with resHash := h } }

/-- A single-bit command: the bounds check first, and only then its result (41_bit_access.md R121). -/
def withIndex (arg : Word) (s : State) (result : Location → State) : State :=
  if inBounds s.w.length (sint32 arg) then result (locate (sint32 arg).toNat) else raise .indexOutOfRange s

/-- SET, UNSET and FLIP differ in the word operation alone (R123-R125). -/
def changeBit (f : Word → Word → Word) (wb : Bool) (arg : Word) (s : State) : State :=
  withIndex arg s fun l => presentVec wb (updateSelected f s.w l) s

/-- A combinator of `W` and `M`: lane `j` reads `W[j]` and `M[j]` only (42_boolean.md R140). -/
def combine (f : Word → Word → Word) (wb : Bool) (m : BitSet) (s : State) : State :=
  presentVec wb (lift2 f s.w m) s

end Sys2Proof.Machine
end

