-- ==== Sys2Proof/Machine/BitAccess.lean ====
section
/-! DEFINITION. GET, SET, UNSET and FLIP (spec/41_bit_access.md). -/

namespace Sys2Proof.Machine

/-- GET: `RES_BIT <- ((W[w] & mask) = mask)` (R122). -/
def execGet (arg : Word) (s : State) : Host.Outcome State Fault Refusal :=
  .next (withIndex arg s fun l => presentBit (bitTest (wordAt s.w l.wordIndex) l.mask) s)

/-- SET: `V[w] = W[w] | mask` (R123). -/
def execSet (wb : Bool) (arg : Word) (s : State) : Host.Outcome State Fault Refusal :=
  .next (changeBit (fun x mask => x ||| mask) wb arg s)

/-- UNSET: `V[w] = W[w] & ~mask` (R124). -/
def execUnset (wb : Bool) (arg : Word) (s : State) : Host.Outcome State Fault Refusal :=
  .next (changeBit (fun x mask => x &&& ~~~mask) wb arg s)

/-- FLIP: `V[w] = W[w] ^ mask` (R125). -/
def execFlip (wb : Bool) (arg : Word) (s : State) : Host.Outcome State Fault Refusal :=
  .next (changeBit (fun x mask => x ^^^ mask) wb arg s)

end Sys2Proof.Machine
end

