-- ==== Sys2Proof/Machine/Boolean.lean ====
section
/-! DEFINITION. The ten boolean combinators (spec/42_boolean.md). -/

namespace Sys2Proof.Machine

/-- AND: `W[j] & M[j]` (R141). -/
def execAnd (wb : Bool) (m : BitSet) (s : State) : Host.Outcome State Fault Refusal :=
  .next (combine (fun x y => x &&& y) wb m s)

/-- ANDNOT: `W[j] & ~M[j]` (R142). -/
def execAndnot (wb : Bool) (m : BitSet) (s : State) : Host.Outcome State Fault Refusal :=
  .next (combine (fun x y => x &&& ~~~y) wb m s)

/-- NAND: `~(W[j] & M[j])` (R143). -/
def execNand (wb : Bool) (m : BitSet) (s : State) : Host.Outcome State Fault Refusal :=
  .next (combine (fun x y => ~~~(x &&& y)) wb m s)

/-- OR: `W[j] | M[j]` (R144). -/
def execOr (wb : Bool) (m : BitSet) (s : State) : Host.Outcome State Fault Refusal :=
  .next (combine (fun x y => x ||| y) wb m s)

/-- ORNOT: `W[j] | ~M[j]` (R145). -/
def execOrnot (wb : Bool) (m : BitSet) (s : State) : Host.Outcome State Fault Refusal :=
  .next (combine (fun x y => x ||| ~~~y) wb m s)

/-- NOR: `~(W[j] | M[j])` (R146). -/
def execNor (wb : Bool) (m : BitSet) (s : State) : Host.Outcome State Fault Refusal :=
  .next (combine (fun x y => ~~~(x ||| y)) wb m s)

/-- XOR: `W[j] ^ M[j]` (R147). -/
def execXor (wb : Bool) (m : BitSet) (s : State) : Host.Outcome State Fault Refusal :=
  .next (combine (fun x y => x ^^^ y) wb m s)

/-- XORNOT: `W[j] ^ ~M[j]` (R148). -/
def execXornot (wb : Bool) (m : BitSet) (s : State) : Host.Outcome State Fault Refusal :=
  .next (combine (fun x y => x ^^^ ~~~y) wb m s)

/-- NOTXOR: `~(W[j] ^ M[j])` (R149). -/
def execNotxor (wb : Bool) (m : BitSet) (s : State) : Host.Outcome State Fault Refusal :=
  .next (combine (fun x y => ~~~(x ^^^ y)) wb m s)

/-- NOT: `~W[j]`, unary; `MASK` is ignored (R150). -/
def execNot (wb : Bool) (s : State) : Host.Outcome State Fault Refusal :=
  .next (presentVec wb (lift1 (fun x => ~~~x) s.w) s)

end Sys2Proof.Machine
end

