-- ==== Sys2Proof/Machine/CompareHash.lean ====
section
/-! DEFINITION. EQ and HASH (spec/45_compare_hash.md). -/

namespace Sys2Proof.Machine

/-- EQ: `W[j] = M[j]` for every `j` (R220). -/
def execEq (m : BitSet) (s : State) : Host.Outcome State Fault Refusal := .next (presentFlag (equalValues s.w m) s)

/-- HASH: the hash chain over `W` (R221). -/
def execHash (s : State) : Host.Outcome State Fault Refusal := .next (presentHash (hashValue s.w) s)

end Sys2Proof.Machine
end

