-- ==== Sys2Proof/Machine/Construct.lean ====
section
/-! DEFINITION. NOP, CLEAR, FILL and LOAD (spec/40_construct.md). -/

namespace Sys2Proof.Machine

/-- NOP: exactly an idle cycle (R100). -/
def execNop (s : State) : Host.Outcome State Fault Refusal := .next (idle s)

/-- CLEAR: `V = ZERO` (R101). -/
def execClear (wb : Bool) (s : State) : Host.Outcome State Fault Refusal :=
  .next (presentVec wb (zeros s.w.length) s)

/-- FILL: `V = ONES` (R102). -/
def execFill (wb : Bool) (s : State) : Host.Outcome State Fault Refusal :=
  .next (presentVec wb (ones s.w.length) s)

/-- LOAD: `V[j] = M[j]` (R103). -/
def execLoad (wb : Bool) (m : BitSet) (s : State) : Host.Outcome State Fault Refusal :=
  .next (combine (fun _ y => y) wb m s)

end Sys2Proof.Machine
end

