-- ==== Sys2Proof/Machine/Query.lean ====
section
/-! DEFINITION. ISEMPTY, HASALL, HASANY and HASNONE (spec/43_query.md). -/

namespace Sys2Proof.Machine

/-- ISEMPTY (R171). -/
def execIsempty (s : State) : Host.Outcome State Fault Refusal := .next (presentFlag (isZero s.w) s)

/-- HASALL (R172). -/
def execHasall (m : BitSet) (s : State) : Host.Outcome State Fault Refusal :=
  .next (presentFlag (hasAllOf s.w m) s)

/-- HASANY (R173). -/
def execHasany (m : BitSet) (s : State) : Host.Outcome State Fault Refusal :=
  .next (presentFlag (hasAnyOf s.w m) s)

/-- HASNONE (R174). -/
def execHasnone (m : BitSet) (s : State) : Host.Outcome State Fault Refusal :=
  .next (presentFlag (hasNoneOf s.w m) s)

end Sys2Proof.Machine
end

