-- ==== Sys2Proof/Machine/Shift.lean ====
section
/-! DEFINITION. SHIFT (spec/44_shift.md). The meaning is R190's definition on bits, the one R201 calls normative.
R191-R194's two word-level passes stand beside it as `shiftByWords`; that they agree is R195. The direction is
90_conflicts.md C2's: a positive count moves bit `i` to bit `i + c`. -/

namespace Sys2Proof.Machine

/-- R190's `V` for the count `c`. -/
def shiftValue (v : BitSet) (c : Int) : BitSet :=
  if c = 0 then v
  else if bitCount v.length ≤ c.natAbs then zeros v.length
  else ofBits v.length fun i =>
    decide (0 ≤ (i : Int) - c) && decide ((i : Int) - c < (bitCount v.length : Int)) && bitAt v ((i : Int) - c).toNat

/-- `carry(j)` of the sub-word pass, positive count (R192). -/
def carryUp (v : BitSet) (s j : Nat) : Word := if j = 0 then 0#32 else wordAt v (j - 1) >>> (32 - s)

/-- `carry(j)` of the sub-word pass, negative count (R193). -/
def carryDown (v : BitSet) (s j : Nat) : Word :=
  if j + 1 < v.length then wordAt v (j + 1) <<< (32 - s) else 0#32

/-- The sub-word pass, skipped when `s = 0` (R191-R193). -/
def subWordPass (v : BitSet) (s : Nat) (positive : Bool) : BitSet :=
  if s = 0 then v
  else if positive then ofWords v.length fun j => wordAt v j <<< s ||| carryUp v s j
  else ofWords v.length fun j => wordAt v j >>> s ||| carryDown v s j

/-- The whole-word pass: a position with no source word becomes 0 (R194). -/
def wholeWordPass (t : BitSet) (k : Nat) (positive : Bool) : BitSet :=
  if positive then ofWords t.length fun j => if k ≤ j then wordAt t (j - k) else 0#32
  else ofWords t.length fun j => if j + k < t.length then wordAt t (j + k) else 0#32

/-- R191's decomposition, for `0 < |c| < BIT_COUNT`. -/
def shiftByWords (v : BitSet) (c : Int) : BitSet :=
  wholeWordPass (subWordPass v (subShift c) (decide (0 < c))) (wholeWords c) (decide (0 < c))

/-- SHIFT by `c = sint32(ARG)`; it never raises an error (R190, R196). -/
def execShift (wb : Bool) (arg : Word) (s : State) : Host.Outcome State Fault Refusal :=
  .next (presentVec wb (shiftValue s.w (sint32 arg)) s)

end Sys2Proof.Machine
end

