-- ==== Sys2Proof/Machine/Dispatch.lean ====
section
/-! DEFINITION. The meaning of each command: what one cycle with that command on the ports does. -/

namespace Sys2Proof.Machine

def exec (i : Instr) (s : State) : Host.Outcome State Fault Refusal :=
  match i with
  | .nop => Sys2Proof.Machine.execNop s
  | .get arg => Sys2Proof.Machine.execGet arg s
  | .set wb arg => Sys2Proof.Machine.execSet wb arg s
  | .unset wb arg => Sys2Proof.Machine.execUnset wb arg s
  | .flip wb arg => Sys2Proof.Machine.execFlip wb arg s
  | .clear wb => Sys2Proof.Machine.execClear wb s
  | .fill wb => Sys2Proof.Machine.execFill wb s
  | .load wb m => Sys2Proof.Machine.execLoad wb m s
  | .and wb m => Sys2Proof.Machine.execAnd wb m s
  | .andnot wb m => Sys2Proof.Machine.execAndnot wb m s
  | .nand wb m => Sys2Proof.Machine.execNand wb m s
  | .or wb m => Sys2Proof.Machine.execOr wb m s
  | .ornot wb m => Sys2Proof.Machine.execOrnot wb m s
  | .nor wb m => Sys2Proof.Machine.execNor wb m s
  | .xor wb m => Sys2Proof.Machine.execXor wb m s
  | .xornot wb m => Sys2Proof.Machine.execXornot wb m s
  | .notxor wb m => Sys2Proof.Machine.execNotxor wb m s
  | .not wb => Sys2Proof.Machine.execNot wb s
  | .shift wb arg => Sys2Proof.Machine.execShift wb arg s
  | .eq m => Sys2Proof.Machine.execEq m s
  | .isempty => Sys2Proof.Machine.execIsempty s
  | .hasall m => Sys2Proof.Machine.execHasall m s
  | .hasany m => Sys2Proof.Machine.execHasany m s
  | .hasnone m => Sys2Proof.Machine.execHasnone m s
  | .hash => Sys2Proof.Machine.execHash s

end Sys2Proof.Machine
end

