-- ==== Sys2Proof/Machine/Cycle.lean ====
section
/-! DEFINITION. One clock cycle: taking the host's next input cycle, then reset, idle, or decode and execute
(spec/10_state.md R25, spec/30_encoding.md R80, spec/60_exceptions.md R255). -/

namespace Sys2Proof.Machine

/-- An engine is built with `1 <= N <= 67108863` words (00_scope.md R5). -/
abbrev State.Built (s : State) : Prop := 1 ≤ s.w.length ∧ s.w.length ≤ Config.maxWordCount

/-- What the host drives when its list is exhausted: an idle cycle, `CMD_VALID = 0` (log entry 3). -/
def idleInputs : PortInputs where
  rst := false
  cmdValid := false
  command := { cmd := 0#8, arg := 0#32, mask := [] }

/-- The host's next cycle, and what it drives after that. -/
def nextCycle : List HostCycle → HostCycle × List HostCycle
  | [] => (.driven idleInputs, [])
  | c :: rest => (c, rest)

/-- A cycle with a command: an illegal `CMD` raises IllegalCommand before anything else; a legal one executes
(R80, R255). -/
def commandCycle (c : Command) (s : State) : Host.Outcome State Fault Refusal :=
  match decode s.w.length c with
  | .error _ => .next (raise .illegalCommand s)
  | .ok i => exec i s

/-- One cycle with all inputs at defined levels: `RST` has priority, then `CMD_VALID` (R25). -/
def drivenCycle (p : PortInputs) (s : State) : Host.Outcome State Fault Refusal :=
  if p.rst then .next (resetCycle s)
  else if p.cmdValid then commandCycle p.command s
  else .next (idle s)

/-- One cycle as the host drives it. -/
def cycle (c : HostCycle) (s : State) : Host.Outcome State Fault Refusal :=
  match c with
  | .driven p => drivenCycle p s
  | .undefinedLevels => .refused .undefinedInputLevels

/-- `s` with the host's list moved past the cycle now on the ports. -/
def State.advance (s : State) : State := { s with pending := (nextCycle s.pending).2 }

/-- One rising edge of `CLK` on an engine that can be built; any other state is refused (log entry 7). -/
def clockEdge (s : State) : Host.Outcome State Fault Refusal :=
  if s.Built then cycle (nextCycle s.pending).1 s.advance else .refused .unsupportedWordCount

/-- The cycle that presents a command with `CMD_VALID = 1` (R70). -/
def presenting (c : Command) : HostCycle := .driven { rst := false, cmdValid := true, command := c }

/-- `s` with the host presenting `c` in the very next cycle, and then whatever it was to drive. -/
def State.present (s : State) (c : Command) : State := { s with pending := presenting c :: s.pending }

end Sys2Proof.Machine
end

