-- ==== Sys2Proof/Machine/Step.lean ====
section
/-! DEFINITION. The step, one clock cycle (spec/10_state.md R25), and the host's placing of one command. -/

namespace Sys2Proof.Machine

/-- One clock cycle. -/
def step (s : State) : Host.Outcome State Fault Refusal := clockEdge s

/-- `s` with the command whose bits are the low `nbits` bits of `w`, every bit above them 0, presented in the very
next cycle: the engine fetches nothing, it takes the command on its ports (R26; log entries 4, 10). -/
def State.withFetchWord (s : State) (nbits w : Nat) : State :=
  s.present (commandOfBits s.w.length (w % 2 ^ nbits))

end Sys2Proof.Machine
end

