-- ==== Sys2Proof/Machine/HostSequences.lean ====
section
/-! DEFINITION. The host-level sequences the spec gives over the commands, which add no hardware: pseudo-instructions
(spec/30_encoding.md R82), indexed access (spec/41_bit_access.md R130), iteration (R131), bulk index sequences
(R132) and bulk masks (R133). -/

namespace Sys2Proof.Machine

/-- The host presents one command in the next cycle, encoded for this engine (R26, R70). -/
def State.issue (i : Instr) (s : State) : Host.Outcome State Fault Refusal :=
  step (s.present (encode s.w.length i))

/-- The host issues commands in order and stops after the first `ERR = 1` (R132, 60_exceptions.md R256). -/
def runUntilError : List Instr → State → Host.Outcome State Fault Refusal
  | [], s => .next s
  | i :: rest, s =>
    match s.issue i with
    | .next t => if t.out.err then .next t else runUntilError rest t
    | .fault r => .fault r
    | .refused r => .refused r

/-- The pseudo-instructions of R82. A trailing `Bool` `v` is the suffix `.V`. -/
inductive Pseudo where
  | setm (m : BitSet)
  | unsetm (m : BitSet)
  | flipm (m : BitSet)
  | wrbit (arg : Word) (b : Bool)
  | shr (v : Bool) (d : Word)
  | shl (v : Bool) (d : Word)
  | none
  | all
  | read
  | setbits (args : List Word)
  | unsetbits (args : List Word)
  | flipbits (args : List Word)
  | iter
  deriving DecidableEq, Repr

/-- What a pseudo-instruction becomes. -/
inductive Expansion where
  /-- Commands the host issues in order, stopping at the first `ERR = 1`. -/
  | commands (l : List Instr)
  /-- The host loop of R131. -/
  | iteration
  deriving DecidableEq, Repr

/-- R82's expansions; `none` for the one the assembler refuses, `SHL -2^31`, whose `-d` has no 32-bit form. -/
def Pseudo.expand : Pseudo → Option Expansion
  | .setm m => some (.commands [.or true m])
  | .unsetm m => some (.commands [.andnot true m])
  | .flipm m => some (.commands [.xor true m])
  | .wrbit arg b => some (.commands [if b then .set true arg else .unset true arg])
  | .shr v d => some (.commands [.shift (!v) d])
  | .shl v d => if d = 0x80000000#32 then Option.none else some (.commands [.shift (!v) (-d)])
  | .none => some (.commands [.clear true])
  | .all => some (.commands [.fill true])
  | .read => some (.commands [.nop])
  | .setbits args => some (.commands (args.map (.set true)))
  | .unsetbits args => some (.commands (args.map (.unset true)))
  | .flipbits args => some (.commands (args.map (.flip true)))
  | .iter => some .iteration

/-- The cursor before the first advance (R131). The cursor is the host's: the engine holds none. -/
def cursorStart : Int := -1

/-- `advance`: the cursor moves on until it is `BIT_COUNT`, and stays there (R131). -/
def cursorAdvance (n : Nat) (k : Int) : Int := if k < (bitCount n : Int) then k + 1 else k

/-- What `advance` returns for the new cursor: false once exhausted (R131). -/
def cursorLive (n : Nat) (k : Int) : Bool := decide (k < (bitCount n : Int))

/-- `current`: a fresh GET of the cursor, so it reads the live `W` (R131). -/
def cursorRead (k : Int) (s : State) : Host.Outcome State Fault Refusal := s.issue (.get (BitVec.ofInt 32 k))

/-- Advance and read until exhausted, an error, or `fuel` advances: the bits read, in order, and the last state. -/
def enumerate : Nat → Int → State → Host.Outcome (List Bool × State) Fault Refusal
  | 0, _, s => .next ([], s)
  | fuel + 1, k, s =>
    if cursorLive s.w.length (cursorAdvance s.w.length k) then
      match cursorRead (cursorAdvance s.w.length k) s with
      | .next t =>
        if t.out.err then .next ([], t)
        else
          match enumerate fuel (cursorAdvance s.w.length k) t with
          | .next (bits, u) => .next (t.out.resBit :: bits, u)
          | .fault r => .fault r
          | .refused r => .refused r
      | .fault r => .fault r
      | .refused r => .refused r
    else .next ([], s)

/-- `ITER`: the whole enumeration from a fresh start (R82, R131). -/
def enumerateAll (s : State) : Host.Outcome (List Bool × State) Fault Refusal :=
  enumerate (bitCount s.w.length + 1) cursorStart s

/-- What the host does with a pseudo-instruction's commands. -/
def Expansion.run (e : Expansion) (s : State) : Host.Outcome State Fault Refusal :=
  match e with
  | .commands l => runUntilError l s
  | .iteration =>
    match enumerateAll s with
    | .next (_, t) => .next t
    | .fault r => .fault r
    | .refused r => .refused r

end Sys2Proof.Machine
end

