-- ==== Sys2Proof/Machine/Assembler.lean ====
section
/-! DEFINITION. The assembly syntax (spec/30_encoding.md R81): one line `MNEMONIC[.V] [operand]` to the commands it
stands for, pseudo-instructions included (R82). A line is a list of characters. What R81 leaves open (white space,
blank lines, word literals, a list longer than `N`) is log entry 13. -/

namespace Sys2Proof.Machine

/-- Why the assembler refuses a line. -/
inductive AsmError where
  | unknownMnemonic
  | badSuffix
  /-- A class-R command, or a pseudo-instruction without one, takes no suffix. -/
  | suffixNotAllowed
  | operandMissing
  /-- `F0` takes no operand. -/
  | operandNotAllowed
  | badInteger
  /-- Outside `[-2^31, 2^31-1]`. -/
  | integerOutOfRange
  | badWordList
  /-- Not a 32-bit word. -/
  | wordOutOfRange
  /-- The list does not have `N` words; the assembler fills nothing in. -/
  | wordListLength
  | badBit
  /-- `SHL -2^31` (R82). -/
  | noNegation
  deriving DecidableEq, Repr

/-- Space or tab. -/
def isBlankChar (c : Char) : Bool := c == ' ' || c == '\t'

/-- The characters without those blank at either end. -/
def trimBlanks (l : List Char) : List Char :=
  ((l.dropWhile isBlankChar).reverse.dropWhile isBlankChar).reverse

/-- The line up to a `;`, which starts a comment. -/
def stripComment (l : List Char) : List Char := l.takeWhile fun c => c != ';'

/-- The pieces between commas, each trimmed. -/
def splitCommas : List Char → List (List Char)
  | [] => [[]]
  | c :: rest =>
    if c == ',' then [] :: splitCommas rest
    else
      match splitCommas rest with
      | [] => [[c]]
      | p :: ps => (c :: p) :: ps

/-- A decimal digit's value. -/
def decimalDigit (c : Char) : Option Nat :=
  if '0'.toNat ≤ c.toNat && c.toNat ≤ '9'.toNat then some (c.toNat - '0'.toNat) else none

/-- A hexadecimal digit's value, either case. -/
def hexDigit (c : Char) : Option Nat :=
  if '0'.toNat ≤ c.toNat && c.toNat ≤ '9'.toNat then some (c.toNat - '0'.toNat)
  else if 'a'.toNat ≤ c.toNat && c.toNat ≤ 'f'.toNat then some (c.toNat - 'a'.toNat + 10)
  else if 'A'.toNat ≤ c.toNat && c.toNat ≤ 'F'.toNat then some (c.toNat - 'A'.toNat + 10)
  else none

/-- Digits to a number, most significant first, after `acc`. -/
def digitsFrom (base : Nat) (digit : Char → Option Nat) : List Char → Nat → Option Nat
  | [], acc => some acc
  | c :: rest, acc =>
    match digit c with
    | none => none
    | some d => digitsFrom base digit rest (base * acc + d)

/-- A decimal or `0x`-hexadecimal magnitude. -/
def parseMagnitude : List Char → Option Nat
  | [] => none
  | '0' :: 'x' :: [] => none
  | '0' :: 'x' :: rest => digitsFrom 16 hexDigit rest 0
  | c :: rest => digitsFrom 10 decimalDigit (c :: rest) 0

/-- A decimal or `0x`-hexadecimal integer, with an optional minus sign. -/
def parseInteger : List Char → Option Int
  | '-' :: rest => (parseMagnitude rest).map fun k => -(k : Int)
  | l => (parseMagnitude l).map fun k => (k : Int)

/-- An `FI` or `FC` operand, placed in `ARG` as its two's-complement pattern. -/
def argOperand (l : List Char) : Except AsmError Word :=
  match parseInteger l with
  | none => .error .badInteger
  | some k =>
    if decide (-(2 ^ 31 : Int) ≤ k) && decide (k ≤ 2 ^ 31 - 1) then .ok (BitVec.ofInt 32 k)
    else .error .integerOutOfRange

/-- A list of integer operands. -/
def argOperands : List (List Char) → Except AsmError (List Word)
  | [] => .ok []
  | l :: rest =>
    match argOperand (trimBlanks l) with
    | .error e => .error e
    | .ok a =>
      match argOperands rest with
      | .error e => .error e
      | .ok as => .ok (a :: as)

/-- One word of a word list. -/
def wordOperand (l : List Char) : Except AsmError Word :=
  match parseMagnitude l with
  | none => .error .badWordList
  | some k => if k < 2 ^ 32 then .ok (BitVec.ofNat 32 k) else .error .wordOutOfRange

/-- The words of a word list. -/
def wordOperands : List (List Char) → Except AsmError BitSet
  | [] => .ok []
  | l :: rest =>
    match wordOperand (trimBlanks l) with
    | .error e => .error e
    | .ok x =>
      match wordOperands rest with
      | .error e => .error e
      | .ok xs => .ok (x :: xs)

/-- An `FM` operand: `[w0, w1, ..., w(N-1)]`, word 0 first, exactly `n` words. -/
def maskOperandText (n : Nat) (l : List Char) : Except AsmError BitSet :=
  match l with
  | '[' :: rest =>
    match rest.reverse with
    | ']' :: inner =>
      match wordOperands (splitCommas inner.reverse) with
      | .error e => .error e
      | .ok m => if m.length = n then .ok m else .error .wordListLength
    | _ => .error .badWordList
  | _ => .error .badWordList

/-- What an assembler line may name, with the operand it takes. -/
inductive AsmForm where
  /-- Class R, format F0. -/
  | plain (i : Instr)
  /-- Class R, format FI. -/
  | indexed (f : Word → Instr)
  /-- Class R, format FM. -/
  | masked (f : BitSet → Instr)
  /-- Class W, format F0; the argument is `WB`. -/
  | writePlain (f : Bool → Instr)
  /-- Class W, format FI or FC. -/
  | writeArg (f : Bool → Word → Instr)
  /-- Class W, format FM. -/
  | writeMasked (f : Bool → BitSet → Instr)
  | pseudoPlain (p : Pseudo)
  | pseudoMasked (f : BitSet → Pseudo)
  | pseudoShift (f : Bool → Word → Pseudo)
  | pseudoBulk (f : List Word → Pseudo)
  | pseudoWriteBit

/-- The mnemonics of R75 and the pseudo-instructions of R82. -/
def mnemonicTable : List (List Char × AsmForm) :=
  [(['N', 'O', 'P'], .plain .nop),
   (['G', 'E', 'T'], .indexed .get),
   (['S', 'E', 'T'], .writeArg .set),
   (['U', 'N', 'S', 'E', 'T'], .writeArg .unset),
   (['F', 'L', 'I', 'P'], .writeArg .flip),
   (['C', 'L', 'E', 'A', 'R'], .writePlain .clear),
   (['F', 'I', 'L', 'L'], .writePlain .fill),
   (['L', 'O', 'A', 'D'], .writeMasked .load),
   (['A', 'N', 'D'], .writeMasked .and),
   (['A', 'N', 'D', 'N', 'O', 'T'], .writeMasked .andnot),
   (['N', 'A', 'N', 'D'], .writeMasked .nand),
   (['O', 'R'], .writeMasked .or),
   (['O', 'R', 'N', 'O', 'T'], .writeMasked .ornot),
   (['N', 'O', 'R'], .writeMasked .nor),
   (['X', 'O', 'R'], .writeMasked .xor),
   (['X', 'O', 'R', 'N', 'O', 'T'], .writeMasked .xornot),
   (['N', 'O', 'T', 'X', 'O', 'R'], .writeMasked .notxor),
   (['N', 'O', 'T'], .writePlain .not),
   (['S', 'H', 'I', 'F', 'T'], .writeArg .shift),
   (['E', 'Q'], .masked .eq),
   (['I', 'S', 'E', 'M', 'P', 'T', 'Y'], .plain .isempty),
   (['H', 'A', 'S', 'A', 'L', 'L'], .masked .hasall),
   (['H', 'A', 'S', 'A', 'N', 'Y'], .masked .hasany),
   (['H', 'A', 'S', 'N', 'O', 'N', 'E'], .masked .hasnone),
   (['H', 'A', 'S', 'H'], .plain .hash)] ++
  [(['S', 'E', 'T', 'M'], .pseudoMasked .setm),
   (['U', 'N', 'S', 'E', 'T', 'M'], .pseudoMasked .unsetm),
   (['F', 'L', 'I', 'P', 'M'], .pseudoMasked .flipm),
   (['W', 'R', 'B', 'I', 'T'], .pseudoWriteBit),
   (['S', 'H', 'R'], .pseudoShift .shr),
   (['S', 'H', 'L'], .pseudoShift .shl),
   (['N', 'O', 'N', 'E'], .pseudoPlain .none),
   (['A', 'L', 'L'], .pseudoPlain .all),
   (['R', 'E', 'A', 'D'], .pseudoPlain .read),
   (['S', 'E', 'T', 'B', 'I', 'T', 'S'], .pseudoBulk .setbits),
   (['U', 'N', 'S', 'E', 'T', 'B', 'I', 'T', 'S'], .pseudoBulk .unsetbits),
   (['F', 'L', 'I', 'P', 'B', 'I', 'T', 'S'], .pseudoBulk .flipbits),
   (['I', 'T', 'E', 'R'], .pseudoPlain .iter)]

/-- The form a mnemonic names. -/
def lookupForm (name : List Char) : List (List Char × AsmForm) → Option AsmForm
  | [] => none
  | (k, f) :: rest => if name == k then some f else lookupForm name rest

/-- The mnemonic and whether `.V` follows it. -/
def splitSuffix (l : List Char) : Except AsmError (List Char × Bool) :=
  match l.dropWhile (fun c => c != '.') with
  | [] => .ok (l, false)
  | ['.', 'V'] => .ok (l.takeWhile fun c => c != '.', true)
  | _ => .error .badSuffix

/-- An operand that must be there. -/
def needOperand (l : List Char) : Except AsmError (List Char) :=
  if l.isEmpty then .error .operandMissing else .ok l

/-- No operand may be there. -/
def noOperand (l : List Char) (i : Expansion) : Except AsmError Expansion :=
  if l.isEmpty then .ok i else .error .operandNotAllowed

/-- No suffix may be there. -/
def noSuffix (v : Bool) (r : Except AsmError Expansion) : Except AsmError Expansion :=
  if v then .error .suffixNotAllowed else r

/-- A pseudo-instruction's expansion, or the assembler's refusal of it (R82). -/
def expandPseudo (p : Pseudo) : Except AsmError Expansion :=
  match p.expand with
  | none => .error .noNegation
  | some e => .ok e

/-- `b` of `WRBIT i, b`. -/
def bitOperand (a : Word) : Except AsmError Bool :=
  if a = 0#32 then .ok false else if a = 1#32 then .ok true else .error .badBit

/-- `WRBIT i, b`. -/
def assembleWriteBit (l : List Char) : Except AsmError Expansion :=
  match argOperands (splitCommas l) with
  | .error e => .error e
  | .ok [a, b] => (bitOperand b).bind fun x => expandPseudo (.wrbit a x)
  | .ok _ => .error .badInteger

/-- One form with its suffix and operand text, for an engine of `n` words. With no suffix a class-W command is in
mutator form (R81). -/
def assembleForm (n : Nat) (f : AsmForm) (v : Bool) (l : List Char) : Except AsmError Expansion :=
  match f with
  | .plain i => noSuffix v (noOperand l (.commands [i]))
  | .indexed f => noSuffix v ((needOperand l).bind fun t => (argOperand t).map fun a => .commands [f a])
  | .masked f => noSuffix v ((needOperand l).bind fun t => (maskOperandText n t).map fun m => .commands [f m])
  | .writePlain f => noOperand l (.commands [f (!v)])
  | .writeArg f => (needOperand l).bind fun t => (argOperand t).map fun a => .commands [f (!v) a]
  | .writeMasked f => (needOperand l).bind fun t => (maskOperandText n t).map fun m => .commands [f (!v) m]
  | .pseudoPlain p => noSuffix v ((expandPseudo p).bind (noOperand l))
  | .pseudoMasked f => noSuffix v ((needOperand l).bind fun t => (maskOperandText n t).bind fun m => expandPseudo (f m))
  | .pseudoShift f => (needOperand l).bind fun t => (argOperand t).bind fun d => expandPseudo (f v d)
  | .pseudoBulk f =>
    noSuffix v ((needOperand l).bind fun t => (argOperands (splitCommas t)).bind fun as => expandPseudo (f as))
  | .pseudoWriteBit => noSuffix v ((needOperand l).bind assembleWriteBit)

/-- One line, for an engine of `n` words: `none` for a line that holds no command. -/
def assembleLine (n : Nat) (line : List Char) : Except AsmError (Option Expansion) :=
  let text := trimBlanks (stripComment line)
  if text.isEmpty then .ok none
  else
    match splitSuffix (text.takeWhile fun c => !isBlankChar c) with
    | .error e => .error e
    | .ok (name, v) =>
      match lookupForm name mnemonicTable with
      | none => .error .unknownMnemonic
      | some f => (assembleForm n f v (trimBlanks (text.dropWhile fun c => !isBlankChar c))).map some

end Sys2Proof.Machine
end

