-- ==== Sys2Proof/Safety.lean ====
section
/-! DEFINITION. What counts as a good state and a safe run, in the terms the statements use. -/

namespace Sys2Proof.Machine

/-- The recorded outputs are ones an engine of `n` words can show: the buses have `n` words, `ERR = 1` exactly when
`ERR_CODE != 0`, code 3 is never driven (spec/60_exceptions.md R250), and with an error every result output but `Q`
reads 0 (R254, spec/10_state.md R27). -/
def Outputs.Good (n : Nat) (o : Outputs) : Prop :=
  o.resVec.length = n ∧ o.q.length = n ∧ o.errCode ≠ 3#2 ∧ (o.err = true ↔ o.errCode ≠ 0#2) ∧
    (o.err = true → o.resVec = zeros n ∧ o.resBit = false ∧ o.resFlag = false ∧ o.resHash = 0#32)

/-- The invariant of the engine: it can be built (00_scope.md R5), `W` has its `N` words (R21), and the recorded
outputs are good. -/
def State.Inv (s : State) : Prop := s.Built ∧ s.out.Good s.w.length

/-- A step that goes on. -/
def Completes (o : Host.Outcome State Fault Refusal) : Prop := ∃ t, o = .next t

/-- Each of the next `k` cycles completes and reports no error: the run the host's contract asks for (R256, R285). -/
def SafeRun : Nat → State → Prop
  | 0, _ => True
  | k + 1, s => ∃ t, step s = .next t ∧ t.out.err = false ∧ SafeRun k t

/-- Every cycle the host is to drive has its inputs at defined levels (spec/70_reset_and_hazards.md R285). -/
def State.HostKeepsLevels (s : State) : Prop := HostCycle.undefinedLevels ∉ s.pending

/-- `t` is `s` after a cycle in which the outputs showed exactly these values, `Q` showed `s`'s `W` (R25), and the
edge left `w` in `W`; the host's list is as it was. It names every field of the state. -/
def Ends (s t : State) (w vec : BitSet) (bit flag : Bool) (hash : Word) (err : Bool) (code : BitVec 2) : Prop :=
  t.w = w ∧ t.pending = s.pending ∧ t.out.resVec = vec ∧ t.out.resBit = bit ∧ t.out.resFlag = flag ∧
    t.out.resHash = hash ∧ t.out.err = err ∧ t.out.errCode = code ∧ t.out.q = s.w

/-- No output but `Q` names anything, and `W` is unchanged. -/
def ShowsNothing (s t : State) : Prop := Ends s t s.w (zeros s.w.length) false false 0#32 false 0#2

/-- A class-W command's end: `v`, of `N` words, on `RES_VEC` alone, and in `W` exactly when `WB = 1`. -/
def ShowsVec (wb : Bool) (v : BitSet) (s t : State) : Prop :=
  v.length = s.w.length ∧ Ends s t (if wb then v else s.w) v false false 0#32 false 0#2

/-- `b` on `RES_BIT` alone; `W` is unchanged. -/
def ShowsBit (b : Bool) (s t : State) : Prop := Ends s t s.w (zeros s.w.length) b false 0#32 false 0#2

/-- `b` on `RES_FLAG` alone; `W` is unchanged. -/
def ShowsFlag (b : Bool) (s t : State) : Prop := Ends s t s.w (zeros s.w.length) false b 0#32 false 0#2

/-- `h` on `RES_HASH` alone; `W` is unchanged. -/
def ShowsHash (h : Word) (s t : State) : Prop := Ends s t s.w (zeros s.w.length) false false h false 0#2

/-- `ERR = 1` and the code, every other result output 0; `W` is unchanged (60_exceptions.md R254). -/
def ShowsError (code : BitVec 2) (s t : State) : Prop :=
  Ends s t s.w (zeros s.w.length) false false 0#32 true code

/-- The index of `ARG` is in `[0, BIT_COUNT)` of an engine of `n` words (41_bit_access.md R121). -/
def ValidIndex (n : Nat) (arg : Word) : Prop := 0 ≤ sint32 arg ∧ sint32 arg < 32 * (n : Int)

/-- A class-W command's two `CMD` values decode to its two forms, on every engine and whatever the other buses hold
(30_encoding.md R75); `i` gives the command from the word count, `WB` and the buses. -/
def EncodedWriter (value mutator : BitVec 8) (i : Nat → Bool → Command → Instr) : Prop :=
  ∀ n c, (c.cmd = value → decode n c = .ok (i n false c)) ∧ (c.cmd = mutator → decode n c = .ok (i n true c))

/-- A class-R command's `CMD` value decodes to it, and the value with `WB = 1` is illegal (30_encoding.md R75, R77). -/
def EncodedReader (value illegal : BitVec 8) (i : Nat → Command → Instr) : Prop :=
  ∀ n c, (c.cmd = value → decode n c = .ok (i n c)) ∧ (c.cmd = illegal → decode n c = .error .writeBackOnReader)

/-- A combinator of `W` and `MASK`: its encoding, and its result, bit `k` of which is `g` of bit `k` of `W` and bit
`k` of `M` (42_boolean.md R140). -/
def CombinatorRule (value mutator : BitVec 8) (mk : Bool → BitSet → Instr) (g : Bool → Bool → Bool) : Prop :=
  EncodedWriter value mutator (fun n wb c => mk wb (maskValue n c)) ∧
    ∀ (s : State) (wb : Bool) (m : BitSet), m.length = s.w.length →
      ∃ t v, exec (mk wb m) s = .next t ∧ ShowsVec wb v s t ∧
        ∀ k < 32 * s.w.length, bitAt v k = g (bitAt s.w k) (bitAt m k)

/-- A single-bit writing command: its encoding; on a valid index, its result, every bit of `W` but the indexed one
as it was and that one `g` of what it was; on any other index, IndexOutOfRange (41_bit_access.md R121-R125). -/
def SingleBitRule (value mutator : BitVec 8) (mk : Bool → Word → Instr) (g : Bool → Bool) : Prop :=
  EncodedWriter value mutator (fun _ wb c => mk wb c.arg) ∧
    ∀ (s : State) (wb : Bool) (arg : Word),
      (ValidIndex s.w.length arg → ∃ t v, exec (mk wb arg) s = .next t ∧ ShowsVec wb v s t ∧
        ∀ k < 32 * s.w.length, bitAt v k = if (k : Int) = sint32 arg then g (bitAt s.w k) else bitAt s.w k) ∧
      (¬ ValidIndex s.w.length arg → ∃ t, exec (mk wb arg) s = .next t ∧ ShowsError 1#2 s t)

end Sys2Proof.Machine
end

