-- ==== Sys2Proof/WellFormed.lean ====
section
/-! DEFINITION. When a command is one that an engine of `n` words can be given (spec/30_encoding.md R73, R74). -/

namespace Sys2Proof

/-- The value a format FM command reads from `MASK`, if the command is of that format (R72). -/
def Instr.maskOperand : Instr → Option BitSet
  | .nop => none
  | .get _ => none
  | .set _ _ => none
  | .unset _ _ => none
  | .flip _ _ => none
  | .clear _ => none
  | .fill _ => none
  | .load _ m => some m
  | .and _ m => some m
  | .andnot _ m => some m
  | .nand _ m => some m
  | .or _ m => some m
  | .ornot _ m => some m
  | .nor _ m => some m
  | .xor _ m => some m
  | .xornot _ m => some m
  | .notxor _ m => some m
  | .not _ => none
  | .shift _ _ => none
  | .eq m => some m
  | .isempty => none
  | .hasall m => some m
  | .hasany m => some m
  | .hasnone m => some m
  | .hash => none

/-- A command is well formed for an engine of `n` words when its `MASK` operand, if it has one, has exactly `n`
words (R74). Every `ARG` pattern is allowed (R73, R79). -/
def Instr.wellFormed (n : Nat) (i : Instr) : Bool :=
  match i.maskOperand with
  | none => true
  | some m => m.length == n

end Sys2Proof
end

