-- ==== Sys2Proof/Certificates/Slice0/Obligations.lean ====
section
/-! DEFINITION. The statements for the provers. Each formalises the rule of spec/ that its docstring names. -/

open Sys2Proof Sys2Proof.Machine

/-! ### Encoding -/

/-- R71, R73-R75: every well-formed command decodes from its own encoding, on an engine of any word count. -/
def Obligations.DecodeEncodeRoundTrip : Prop :=
  ∀ (n : Nat) (i : Instr), i.wellFormed n = true → decode n (encode n i) = .ok i

/-- R72-R75: what the decoder accepts is well formed, and its encoding has the same `CMD` and agrees on every bus
that the format reads. -/
def Obligations.DecodedCommandReencodes : Prop :=
  ∀ (n : Nat) (c : Command) (i : Instr), decode n c = .ok i →
    i.wellFormed n = true ∧ (encode n i).cmd = c.cmd ∧
      (i.format = .fi ∨ i.format = .fc → (encode n i).arg = c.arg) ∧
      (i.format = .fm → ∀ j < n, wordAt (encode n i).mask j = wordAt c.mask j)

/-- R77: the decoder rejects exactly the `CMD` values of the rule's three grounds, and such a command raises
IllegalCommand; 192, 14 and 8 values, 214 in all, 42 legal; `0x12` stays illegal. -/
def Obligations.IllegalEncodingsAreExactlyThoseListed : Prop :=
  (∀ (n : Nat) (c : Command), (∃ e, decode n c = .error e) ↔
    (rsvField c.cmd ≠ 0 ∨ opField c.cmd ∈ [0x12, 0x13, 0x15, 0x16, 0x17, 0x1E, 0x1F] ∨
      (opField c.cmd ∈ [0x00, 0x01, 0x18, 0x19, 0x1A, 0x1B, 0x1C, 0x1D] ∧ wbField c.cmd = true))) ∧
  (∀ (s : State) (c : Command), s.Built → illegalCmd c.cmd = true →
    ∃ t, step (s.present c) = .next t ∧ ShowsError 2#2 s t) ∧
  (∀ (n : Nat) (c : Command), illegalCmd c.cmd = true ↔ ∃ e, decode n c = .error e) ∧
  ((List.range 256).filter fun x => rsvField (BitVec.ofNat 8 x) != 0).length = 192 ∧
  ((List.range 64).filter fun x =>
    [0x12, 0x13, 0x15, 0x16, 0x17, 0x1E, 0x1F].contains (opField (BitVec.ofNat 8 x))).length = 14 ∧
  ((List.range 64).filter fun x => wbField (BitVec.ofNat 8 x) &&
    [0x00, 0x01, 0x18, 0x19, 0x1A, 0x1B, 0x1C, 0x1D].contains (opField (BitVec.ofNat 8 x))).length = 8 ∧
  ((List.range 256).filter fun x => illegalCmd (BitVec.ofNat 8 x)).length = 214 ∧
  ((List.range 256).filter fun x => !illegalCmd (BitVec.ofNat 8 x)).length = 42

/-- R83's seven examples: the assembly lines, the commands they stand for, and their encodings. -/
def Obligations.EncodingExamplesOfTheSpec : Prop :=
  (assembleLine 4 ['S', 'E', 'T', ' ', '1', '2', '7']).toOption = some (some (.commands [.set true 127#32])) ∧
  (encode 4 (.set true 127#32)).cmd = 0x22#8 ∧ (encode 4 (.set true 127#32)).arg = 0x0000007F#32 ∧
  (assembleLine 4 ['S', 'H', 'I', 'F', 'T', ' ', '-', '1']).toOption =
    some (some (.commands [.shift true 0xFFFFFFFF#32])) ∧
  (encode 4 (.shift true 0xFFFFFFFF#32)).cmd = 0x34#8 ∧
  (encode 4 (.shift true 0xFFFFFFFF#32)).arg = 0xFFFFFFFF#32 ∧
  (assembleLine 4 ['A', 'N', 'D', '.', 'V', ' ', '[', '1', ',', '0', ',', '0', ',', '0', ']']).toOption =
    some (some (.commands [.and false [1#32, 0#32, 0#32, 0#32]])) ∧
  (encode 4 (.and false [1#32, 0#32, 0#32, 0#32])).cmd = 0x08#8 ∧
  (encode 4 (.and false [1#32, 0#32, 0#32, 0#32])).mask = [0x00000001#32, 0#32, 0#32, 0#32] ∧
  (assembleLine 4 ['G', 'E', 'T', ' ', '3']).toOption = some (some (.commands [.get 3#32])) ∧
  (encode 4 (.get 3#32)).cmd = 0x01#8 ∧ (encode 4 (.get 3#32)).arg = 0x00000003#32 ∧
  (assembleLine 4 ['H', 'A', 'S', 'H']).toOption = some (some (.commands [.hash])) ∧
  (encode 4 .hash).cmd = 0x1D#8 ∧ illegalCmd 0x21#8 = true ∧ illegalCmd 0x52#8 = true

/-- R75: words written out from the opcode map, one or more of each family, decode to their commands. -/
def Obligations.WrittenOutWordsDecode : Prop :=
  let m : BitSet := [5#32, 6#32, 7#32, 8#32]
  let c (x : BitVec 8) (a : Word) : Command := { cmd := x, arg := a, mask := m }
  decode 4 (c 0b00000000#8 9#32) = .ok .nop ∧ decode 4 (c 0b00000001#8 9#32) = .ok (.get 9#32) ∧
  decode 4 (c 0b00100011#8 9#32) = .ok (.unset true 9#32) ∧ decode 4 (c 0b00000110#8 9#32) = .ok (.fill false) ∧
  decode 4 (c 0b00100111#8 9#32) = .ok (.load true m) ∧ decode 4 (c 0b00101100#8 9#32) = .ok (.ornot true m) ∧
  decode 4 (c 0b00010000#8 9#32) = .ok (.notxor false m) ∧ decode 4 (c 0b00110100#8 9#32) = .ok (.shift true 9#32) ∧
  decode 4 (c 0b00011011#8 9#32) = .ok (.hasany m) ∧ decode 4 (c 0b00011000#8 9#32) = .ok (.eq m) ∧
  decode 4 (c 0b00011101#8 9#32) = .ok .hash ∧ decode 4 (c 0b00010010#8 9#32) = .error .reservedOpcode ∧
  decode 4 (c 0b01000000#8 9#32) = .error .reservedBits ∧ decode 4 (c 0b00111101#8 9#32) = .error .writeBackOnReader

/-- R72: a bus the format does not read has no effect on any output or on `W`: two commands with one `CMD` that
agree on the buses its format reads make the same step. -/
def Obligations.UnreadBusesHaveNoEffect : Prop :=
  ∀ (s : State) (c d : Command), c.cmd = d.cmd →
    (∀ i, decode s.w.length c = .ok i → (i.format = .fi ∨ i.format = .fc → c.arg = d.arg) ∧
      (i.format = .fm → ∀ j < s.w.length, wordAt c.mask j = wordAt d.mask j)) →
    step (s.present c) = step (s.present d)

/-- R7, R74: the flat bus of a value is `32*N` bits wide, bus bit `i` is value bit `i`, word `j` is its bits
`[32j+31 : 32j]`, and the value is read back from its bus. -/
def Obligations.BusBitIsValueBit : Prop :=
  ∀ v : BitSet, toBus v < 2 ^ (32 * v.length) ∧ (∀ i, (toBus v).testBit i = bitAt v i) ∧
    (∀ j, BitVec.ofNat 32 (toBus v >>> (32 * j)) = wordAt v j) ∧ ofBus v.length (toBus v) = v

/-! ### The cycle -/

/-- R25, R80: a step on a presented legal command is `exec` of the decoded command, on the state whose host list has
moved past the cycle. -/
def Obligations.StepRunsDecodedInstruction : Prop :=
  ∀ (s : State) (p : PortInputs) (rest : List HostCycle) (i : Instr), s.Built → s.pending = .driven p :: rest →
    p.rst = false → p.cmdValid = true → decode s.w.length p.command = .ok i →
    step s = exec i { s with pending := rest }

/-- R100: NOP changes nothing and shows nothing; `CMD = 0x00` is NOP, its cycle is exactly an idle cycle,
`CMD = 0x20` is IllegalCommand, and `READ` is a NOP. -/
def Obligations.NopIsAnIdleCycle : Prop :=
  EncodedReader 0x00#8 0x20#8 (fun _ _ => .nop) ∧
  (∀ s : State, ∃ t, exec .nop s = .next t ∧ ShowsNothing s t) ∧
  (∀ (s : State) (c d : Command), c.cmd = 0x00#8 → step (s.present c) =
    step { s with pending := .driven { rst := false, cmdValid := false, command := d } :: s.pending }) ∧
  (∀ (s : State) (c : Command), s.Built → c.cmd = 0x20#8 →
    ∃ t, step (s.present c) = .next t ∧ ShowsError 2#2 s t) ∧
  Pseudo.read.expand = some (.commands [.nop])

/-- R25, R263: any number of idle cycles keeps `W`, and every idle cycle shows nothing. -/
def Obligations.IdleCyclesKeepW : Prop :=
  ∀ (cs rest : List HostCycle) (s : State), s.Built → s.pending = cs ++ rest → cs ≠ [] →
    (∀ x ∈ cs, ∃ p, x = .driven p ∧ p.rst = false ∧ p.cmdValid = false) →
    ∃ t, Host.Core.run Sys2Proof.core cs.length s = .next t ∧
      Ends { s with pending := rest } t s.w (zeros s.w.length) false false 0#32 false 0#2

/-- R280: every cycle with `RST = 1` leaves `W = ZERO` with no output but `Q` shown, whatever its command; holding
it for several cycles keeps ZERO; and the first command after it sees ZERO, as on the reset state. -/
def Obligations.ResetCyclesClearW : Prop :=
  (∀ (s : State) (p : PortInputs) (rest : List HostCycle), s.Built → s.pending = .driven p :: rest → p.rst = true →
    ∃ t, step s = .next t ∧
      Ends { s with pending := rest } t (zeros s.w.length) (zeros s.w.length) false false 0#32 false 0#2) ∧
  (∀ (cs rest : List HostCycle) (s : State), s.Built → s.pending = cs ++ rest → cs ≠ [] →
    (∀ x ∈ cs, ∃ p, x = .driven p ∧ p.rst = true) →
    ∃ t, Host.Core.run Sys2Proof.core cs.length s = .next t ∧ t.w = zeros s.w.length ∧ t.pending = rest ∧
      t.out.err = false ∧ step t = step { State.resetOf s.w.length with pending := rest })

/-- R250, R252: on every command exactly one of the codes 0, 1, 2 is reported and `ERR = 1` exactly when it is not
0; 2 on an illegal `CMD`, 1 on a legal GET, SET, UNSET or FLIP with an index outside `[0, BIT_COUNT)`. -/
def Obligations.ErrorCodesAreExact : Prop :=
  ∀ (s : State) (c : Command), s.Built → ∃ t, step (s.present c) = .next t ∧
    (t.out.errCode = 2#2 ↔ illegalCmd c.cmd = true) ∧
    (t.out.errCode = 1#2 ↔ illegalCmd c.cmd = false ∧ opField c.cmd ∈ [0x01, 0x02, 0x03, 0x04] ∧
      (sint32 c.arg < 0 ∨ 32 * (s.w.length : Int) ≤ sint32 c.arg)) ∧
    t.out.errCode ≠ 3#2 ∧ (t.out.err = true ↔ t.out.errCode ≠ 0#2)

/-- R254: a command that raises an error writes nothing and reports it alone; the error is not latched, and the
next cycle runs as if it had not been. -/
def Obligations.ErrorsOnlyReport : Prop :=
  ∀ (s t : State) (c : Command), step (s.present c) = .next t → t.out.err = true →
    ShowsError t.out.errCode s t ∧ (t.out.errCode = 1#2 ∨ t.out.errCode = 2#2) ∧
      step t = step s ∧ ∀ d, step (t.present d) = step (s.present d)

/-- R255: IllegalCommand is checked first, so an illegal `CMD` reports code 2 whatever its `OP` and `ARG` (the rule's
example among them); code 1 comes from a legal single-bit command only; `RST = 1` beats every command and error. -/
def Obligations.ErrorPriority : Prop :=
  (∀ (s : State) (m : BitSet), s.Built →
    ∃ t, step (s.present { cmd := 0x21#8, arg := 0xFFFFFFFF#32, mask := m }) = .next t ∧ ShowsError 2#2 s t) ∧
  (∀ (s : State) (c : Command), s.Built → illegalCmd c.cmd = true →
    ∃ t, step (s.present c) = .next t ∧ ShowsError 2#2 s t) ∧
  (∀ (s t : State) (c : Command), step (s.present c) = .next t → t.out.errCode = 1#2 →
    ∃ i, decode s.w.length c = .ok i ∧ i.format = .fi) ∧
  (∀ (s : State) (c : Command) (valid : Bool), s.Built → ∃ t,
    step { s with pending := .driven { rst := true, cmdValid := valid, command := c } :: s.pending } = .next t ∧
      t.out.err = false ∧ t.out.errCode = 0#2 ∧ t.w = zeros s.w.length)

/-- R288, with the model's two refusals (log entries 6 and 7): a step stops exactly on a word count no engine has or
on undefined input levels, under its own name; every other step completes. -/
def Obligations.StepStopsOnlyOutsideTheContract : Prop :=
  ∀ s : State, (¬ s.Built → step s = .refused .unsupportedWordCount) ∧
    (s.Built → ∀ rest, s.pending = .undefinedLevels :: rest → step s = .refused .undefinedInputLevels) ∧
    (s.Built → (∀ rest, s.pending ≠ .undefinedLevels :: rest) → ∃ t, step s = .next t)

/-- The model's choice (log entry 3): an exhausted host list is idle cycles. -/
def Obligations.ExhaustedHostListIdles : Prop :=
  ∀ s : State, s.Built → s.pending = [] → ∃ t, step s = .next t ∧ ShowsNothing s t

/-- The model's choice (log entries 4 and 10): a placed command is what the very next step runs, with nothing else
changed. -/
def Obligations.PlacedWordRunsNext : Prop :=
  ∀ (s : State) (nbits x : Nat) (i : Instr), s.Built →
    decode s.w.length (commandOfBits s.w.length (x % 2 ^ nbits)) = .ok i → step (s.withFetchWord nbits x) = exec i s

/-! ### Invariants and whole-machine rules -/

/-- R5, R21, R250, R254: every step from a state that meets the engine's invariant gives one that does, with the
same word count. -/
def Obligations.StepKeepsEngineInvariant : Prop :=
  ∀ s t : State, s.Inv → step s = .next t → t.Inv ∧ t.w.length = s.w.length

/-- The reset state of every engine that can be built meets the invariant, `State.reset` among them. -/
def Obligations.ResetMeetsEngineInvariant : Prop :=
  (∀ n : Nat, 1 ≤ n → n ≤ Config.maxWordCount → (State.resetOf n).Inv) ∧ State.reset.Inv

/-- R281: what reset leaves: `W` and `Q` ZERO and every other output 0, on an engine of any word count. -/
def Obligations.ResetStateValues : Prop :=
  (∀ n : Nat, (State.resetOf n).w = List.replicate n 0#32 ∧ (State.resetOf n).q = List.replicate n 0#32 ∧
    ShowsNothing (State.resetOf n) (State.resetOf n)) ∧
  ∃ n, 1 ≤ n ∧ n ≤ 67108863 ∧ State.reset = State.resetOf n

/-- R21, R55: `W` keeps its words, and changes only at a reset or at a legal writing command with `WB = 1` that
completes without error. -/
def Obligations.OnlyMutatorsAndResetChangeW : Prop :=
  ∀ s t : State, step s = .next t → t.w.length = s.w.length ∧
    (t.w ≠ s.w → ∃ p rest, s.pending = .driven p :: rest ∧
      (p.rst = true ∨ (p.cmdValid = true ∧ ∃ i, decode s.w.length p.command = .ok i ∧ i.isWriting = true ∧
        i.writeBack = true ∧ t.out.err = false ∧ t.w = t.out.resVec)))

/-- R22, R27: a step depends on `W` and the cycle's own inputs only: the outputs hold nothing from one cycle to the
next, and neither earlier outputs nor later cycles change what a cycle does. -/
def Obligations.StepDependsOnWAndInputsOnly : Prop :=
  (∀ s u : State, s.w = u.w → s.pending = u.pending → step s = step u) ∧
  ∀ (s u s' u' : State) (c : HostCycle) (rs ru : List HostCycle), s.w = u.w → s.pending = c :: rs →
    u.pending = c :: ru → step s = .next s' → step u = .next u' → s'.w = u'.w ∧ s'.out = u'.out

/-- R24: `Q` is `W` at all times, so the cycle after a write shows the new value. -/
def Obligations.QShowsW : Prop :=
  ∀ s : State, s.q = s.w ∧ ∀ t, step s = .next t → t.out.q = s.w ∧ ∀ u, step t = .next u → u.out.q = t.w

/-- R288: as long as the host keeps its levels defined, any number of cycles completes. -/
def Obligations.EveryRunCompletes : Prop :=
  ∀ (k : Nat) (s : State), s.Built → s.HostKeepsLevels →
    ∃ t, Host.Core.run Sys2Proof.core k s = .next t ∧ t.Built ∧ t.pending = s.pending.drop k

/-- R282, R283: from any power-up value one cycle with `RST = 1` leaves the reset state's `W`, so that every run
after it is the reset state's own. -/
def Obligations.BootFromPowerUp : Prop :=
  ∀ (k n : Nat) (p : PortInputs) (rest : List HostCycle), 1 ≤ n → n ≤ Config.maxWordCount → p.rst = true →
    ∃ t, step { State.powerUp k n with pending := .driven p :: rest } = .next t ∧ t.w = (State.resetOf n).w ∧
      t.pending = rest ∧ step t = step { State.resetOf n with pending := rest }

/-! ### Construction and single bits -/

/-- R101, R102: the encodings and results of CLEAR and FILL; FILL gives the value of CLEAR followed by NOT. -/
def Obligations.ClearAndFillConstructTheConstants : Prop :=
  EncodedWriter 0x05#8 0x25#8 (fun _ wb _ => .clear wb) ∧ EncodedWriter 0x06#8 0x26#8 (fun _ wb _ => .fill wb) ∧
  ∀ s : State, (∀ wb : Bool,
    (∃ t, exec (.clear wb) s = .next t ∧ ShowsVec wb (List.replicate s.w.length 0#32) s t) ∧
    (∃ t, exec (.fill wb) s = .next t ∧ ShowsVec wb (List.replicate s.w.length 0xFFFFFFFF#32) s t)) ∧
    ∃ t u f, exec (.clear true) s = .next t ∧ exec (.not true) t = .next u ∧ exec (.fill true) s = .next f ∧ u.w = f.w

/-- R103: LOAD's encoding and result; with `M = W` it leaves `W` as it is; and a value that is neither ZERO nor ONES
comes into `W` whatever `W` was by one command only, LOAD of that value. -/
def Obligations.LoadAssignsTheMask : Prop :=
  EncodedWriter 0x07#8 0x27#8 (fun n wb c => .load wb (maskValue n c)) ∧
  (∀ (s : State) (wb : Bool) (m : BitSet), m.length = s.w.length →
    ∃ t, exec (.load wb m) s = .next t ∧ ShowsVec wb m s t ∧ (m = s.w → t.w = s.w)) ∧
  ∀ (n : Nat) (v : BitSet) (i : Instr), 1 ≤ n → v.length = n → v ≠ zeros n → v ≠ ones n → i.wellFormed n = true →
    ((∀ s : State, s.w.length = n → ∃ t, exec i s = .next t ∧ t.w = v) ↔ i = .load true v)

/-- R122: GET's encoding, the indexed bit on `RES_BIT`, and IndexOutOfRange with `RES_BIT = 0` otherwise. -/
def Obligations.GetReadsTheIndexedBit : Prop :=
  EncodedReader 0x01#8 0x21#8 (fun _ c => .get c.arg) ∧
  ∀ (s : State) (arg : Word),
    (ValidIndex s.w.length arg → ∃ t, exec (.get arg) s = .next t ∧ ShowsBit (bitAt s.w (sint32 arg).toNat) s t) ∧
    (¬ ValidIndex s.w.length arg → ∃ t, exec (.get arg) s = .next t ∧ ShowsError 1#2 s t)

/-- R123. -/
def Obligations.SetSetsTheIndexedBit : Prop := SingleBitRule 0x02#8 0x22#8 .set (fun _ => true)

/-- R124. -/
def Obligations.UnsetClearsTheIndexedBit : Prop := SingleBitRule 0x03#8 0x23#8 .unset (fun _ => false)

/-- R125. -/
def Obligations.FlipTogglesTheIndexedBit : Prop := SingleBitRule 0x04#8 0x24#8 .flip (fun b => !b)

/-- R121: a single-bit command fails exactly on the indices `[-2^31, -1]` and `[BIT_COUNT, 2^31-1]`, and then
writes nothing and shows IndexOutOfRange alone. -/
def Obligations.BoundsCheckComesFirst : Prop :=
  ∀ (s : State) (arg : Word) (i : Instr),
    (i = .get arg ∨ ∃ wb, i = .set wb arg ∨ i = .unset wb arg ∨ i = .flip wb arg) →
    ∃ t, exec i s = .next t ∧
      ((-2 ^ 31 ≤ sint32 arg ∧ sint32 arg ≤ -1 ∨ 32 * (s.w.length : Int) ≤ sint32 arg ∧ sint32 arg ≤ 2 ^ 31 - 1) →
        ShowsError 1#2 s t) ∧
      ((0 ≤ sint32 arg ∧ sint32 arg < 32 * (s.w.length : Int)) → t.out.err = false)

/-- R126, R284: on every valid index, GET right after SET reads 1, right after UNSET reads 0, right after FLIP reads
the complement, and GET of any other valid index reads what it read before. -/
def Obligations.SingleBitCommandThenGet : Prop :=
  ∀ (s : State) (a b : Word), s.Built → ValidIndex s.w.length a → ValidIndex s.w.length b →
    ∃ t0, s.issue (.get b) = .next t0 ∧
    (∃ t u, s.issue (.set true a) = .next t ∧ t.issue (.get b) = .next u ∧
      u.out.resBit = if b = a then true else t0.out.resBit) ∧
    (∃ t u, s.issue (.unset true a) = .next t ∧ t.issue (.get b) = .next u ∧
      u.out.resBit = if b = a then false else t0.out.resBit) ∧
    (∃ t u, s.issue (.flip true a) = .next t ∧ t.issue (.get b) = .next u ∧
      u.out.resBit = if b = a then !t0.out.resBit else t0.out.resBit)

/-! ### Boolean combinators -/

/-- R141-R149: the encoding of each combinator of `W` and `MASK`, and every bit of its result. -/
def Obligations.CombinatorsActBitByBit : Prop :=
  CombinatorRule 0x08#8 0x28#8 .and (fun a b => a && b) ∧
  CombinatorRule 0x09#8 0x29#8 .andnot (fun a b => a && !b) ∧
  CombinatorRule 0x0A#8 0x2A#8 .nand (fun a b => !(a && b)) ∧
  CombinatorRule 0x0B#8 0x2B#8 .or (fun a b => a || b) ∧
  CombinatorRule 0x0C#8 0x2C#8 .ornot (fun a b => a || !b) ∧
  CombinatorRule 0x0D#8 0x2D#8 .nor (fun a b => !(a || b)) ∧
  CombinatorRule 0x0E#8 0x2E#8 .xor (fun a b => a ^^ b) ∧
  CombinatorRule 0x0F#8 0x2F#8 .xornot (fun a b => a ^^ !b) ∧
  CombinatorRule 0x10#8 0x30#8 .notxor (fun a b => !(a ^^ b))

/-- R150: NOT's encoding, and every bit of its result. -/
def Obligations.NotComplementsEveryBit : Prop :=
  EncodedWriter 0x11#8 0x31#8 (fun _ wb _ => .not wb) ∧
  ∀ (s : State) (wb : Bool), ∃ t v, exec (.not wb) s = .next t ∧ ShowsVec wb v s t ∧
    ∀ k < 32 * s.w.length, bitAt v k = !bitAt s.w k

/-- R151: XORNOT and NOTXOR are interchangeable in every result, at the word and at the command. -/
def Obligations.XornotEqualsNotxor : Prop :=
  (∀ a m : Word, a ^^^ ~~~m = ~~~(a ^^^ m)) ∧
  ∀ (wb : Bool) (m : BitSet) (s : State), exec (.xornot wb m) s = exec (.notxor wb m) s

/-- R152, R133: set-by-mask is OR, unset-by-mask is ANDNOT, flip-by-mask is XOR; with only bit `i` in the mask each
equals the single-bit command on `i`. -/
def Obligations.MaskVariantsMatchSingleBits : Prop :=
  (∀ m : BitSet, (Pseudo.setm m).expand = some (.commands [.or true m]) ∧
    (Pseudo.unsetm m).expand = some (.commands [.andnot true m]) ∧
    (Pseudo.flipm m).expand = some (.commands [.xor true m])) ∧
  ∀ (s : State) (wb : Bool) (arg : Word) (m : BitSet), ValidIndex s.w.length arg → m.length = s.w.length →
    (∀ k < 32 * s.w.length, bitAt m k = decide ((k : Int) = sint32 arg)) →
    exec (.or wb m) s = exec (.set wb arg) s ∧ exec (.andnot wb m) s = exec (.unset wb arg) s ∧
      exec (.xor wb m) s = exec (.flip wb arg) s

/-- R153: for every value `a` of `W`, `AND ONES` gives `a`, `OR ZERO` gives `a`, `XOR a` gives ZERO, NOT twice
gives `a`. -/
def Obligations.BooleanIdentities : Prop :=
  ∀ s : State, (∃ t, exec (.and true (ones s.w.length)) s = .next t ∧ t.w = s.w) ∧
    (∃ t, exec (.or true (zeros s.w.length)) s = .next t ∧ t.w = s.w) ∧
    (∃ t, exec (.xor true s.w) s = .next t ∧ t.w = zeros s.w.length) ∧
    (∃ t u, exec (.not true) s = .next t ∧ exec (.not true) t = .next u ∧ u.w = s.w)

/-! ### Queries, equality, hash -/

/-- R171-R174: the encodings of the four queries, and when each flag is 1. -/
def Obligations.QueryFlags : Prop :=
  EncodedReader 0x19#8 0x39#8 (fun _ _ => .isempty) ∧
  EncodedReader 0x1A#8 0x3A#8 (fun n c => .hasall (maskValue n c)) ∧
  EncodedReader 0x1B#8 0x3B#8 (fun n c => .hasany (maskValue n c)) ∧
  EncodedReader 0x1C#8 0x3C#8 (fun n c => .hasnone (maskValue n c)) ∧
  (∀ s : State, ∃ t b, exec .isempty s = .next t ∧ ShowsFlag b s t ∧
    (b = true ↔ ∀ j < s.w.length, wordAt s.w j = 0#32)) ∧
  ∀ (s : State) (m : BitSet), m.length = s.w.length →
    (∃ t b, exec (.hasall m) s = .next t ∧ ShowsFlag b s t ∧
      (b = true ↔ ∀ j < s.w.length, wordAt s.w j &&& wordAt m j = wordAt m j)) ∧
    (∃ t b, exec (.hasany m) s = .next t ∧ ShowsFlag b s t ∧
      (b = false ↔ ∀ j < s.w.length, wordAt s.w j &&& wordAt m j = 0#32)) ∧
    (∃ t b, exec (.hasnone m) s = .next t ∧ ShowsFlag b s t ∧
      (b = true ↔ ∀ j < s.w.length, wordAt s.w j &&& wordAt m j = 0#32))

/-- R175: HASANY is the complement of HASNONE; HASALL implies HASANY when `M` is not ZERO; ISEMPTY is
`HASNONE ONES`. -/
def Obligations.QueriesAgree : Prop :=
  ∀ (s : State) (m : BitSet), m.length = s.w.length →
    ∃ ta ty tn te tf, exec (.hasall m) s = .next ta ∧ exec (.hasany m) s = .next ty ∧
      exec (.hasnone m) s = .next tn ∧ exec .isempty s = .next te ∧
      exec (.hasnone (ones s.w.length)) s = .next tf ∧ ty.out.resFlag = !tn.out.resFlag ∧
      (m ≠ zeros s.w.length → ta.out.resFlag = true → ty.out.resFlag = true) ∧ te.out.resFlag = tf.out.resFlag

/-- R220: EQ's encoding, and its flag: 1 exactly when every word agrees. -/
def Obligations.EqComparesEveryWord : Prop :=
  EncodedReader 0x18#8 0x38#8 (fun n c => .eq (maskValue n c)) ∧
  ∀ (s : State) (m : BitSet), m.length = s.w.length → ∃ t b, exec (.eq m) s = .next t ∧ ShowsFlag b s t ∧
    (b = true ↔ ∀ j < s.w.length, wordAt s.w j = wordAt m j)

/-- R221: HASH's encoding, and its result by the rule's own loop: from 17, `31 * h + W[j]` modulo `2^32` for each
word in order. The seed and multiplier are R5's defaults (log entry 2). -/
def Obligations.HashFoldsWordsInOrder : Prop :=
  EncodedReader 0x1D#8 0x3D#8 (fun _ _ => .hash) ∧
  ∀ s : State, ∃ (h : Nat → Nat) (t : State), h 0 = 17 ∧
    (∀ j < s.w.length, h (j + 1) = (31 * h j + (wordAt s.w j).toNat) % 2 ^ 32) ∧
    exec .hash s = .next t ∧ ShowsHash (BitVec.ofNat 32 (h s.w.length)) s t

/-- R222, R223: EQ is reflexive, symmetric and transitive, and a value that EQ finds equal to `W` hashes alike once
LOADed. -/
def Obligations.EqualityIsAnEquivalenceAndHashRespectsIt : Prop :=
  ∀ (s : State) (m k : BitSet), m.length = s.w.length → k.length = s.w.length →
    ∃ self fwd bwd mid trans loaded hs hm, exec (.eq s.w) s = .next self ∧ exec (.eq m) s = .next fwd ∧
      exec (.eq s.w) { s with w := m } = .next bwd ∧ exec (.eq k) { s with w := m } = .next mid ∧
      exec (.eq k) s = .next trans ∧ exec (.load true m) s = .next loaded ∧ exec .hash s = .next hs ∧
      exec .hash loaded = .next hm ∧
      self.out.resFlag = true ∧ fwd.out.resFlag = bwd.out.resFlag ∧
      (fwd.out.resFlag = true → mid.out.resFlag = true → trans.out.resFlag = true) ∧
      (fwd.out.resFlag = true → hs.out.resHash = hm.out.resHash)

/-! ### Shift -/

/-- R190: SHIFT's encoding, and every bit of its result, for every `ARG`: bit `i` is bit `i - c` of `W` where there
is one, and 0 otherwise; a count of 0 gives `W`, a magnitude of at least `BIT_COUNT` gives ZERO. -/
def Obligations.ShiftMovesEveryBit : Prop :=
  EncodedWriter 0x14#8 0x34#8 (fun _ wb c => .shift wb c.arg) ∧
  ∀ (s : State) (wb : Bool) (arg : Word), ∃ t v, exec (.shift wb arg) s = .next t ∧ ShowsVec wb v s t ∧
    (∀ i < 32 * s.w.length, bitAt v i =
      if 0 ≤ (i : Int) - sint32 arg ∧ (i : Int) - sint32 arg < 32 * (s.w.length : Int) then
        bitAt s.w ((i : Int) - sint32 arg).toNat
      else false) ∧
    (sint32 arg = 0 → v = s.w) ∧
    (32 * s.w.length ≤ (sint32 arg).natAbs → v = List.replicate s.w.length 0#32)

/-- R195: the two word-level passes of R191-R194 give exactly R190's value, for every `N >= 1`, every value and every
count with `0 < |c| < BIT_COUNT`. -/
def Obligations.WordPassesEqualShift : Prop :=
  ∀ (v : BitSet) (c : Int), 0 < c.natAbs → c.natAbs < 32 * v.length → shiftByWords v c = shiftValue v c

/-- R196, R199: SHIFT never raises an error, and a magnitude of at least `BIT_COUNT`, `2^31` among them, gives ZERO
whatever `W` is. -/
def Obligations.ShiftNeverRaisesAndSaturates : Prop :=
  ∀ (s : State) (wb : Bool) (arg : Word), ∃ t, exec (.shift wb arg) s = .next t ∧ t.out.err = false ∧
    t.out.errCode = 0#2 ∧
    (32 * s.w.length ≤ (sint32 arg).natAbs → ShowsVec wb (List.replicate s.w.length 0#32) s t) ∧
    (s.Built → arg = 0x80000000#32 → ShowsVec wb (List.replicate s.w.length 0#32) s t)

/-- R197: read as a little-endian integer, the value is multiplied by `2^d` modulo `2^BIT_COUNT` by `SHIFT d`, and
divided by `2^d` by `SHIFT -d`. -/
def Obligations.ShiftScalesTheFlatBus : Prop :=
  ∀ (v : BitSet) (d : Nat), toBus (shiftValue v (d : Int)) = toBus v * 2 ^ d % 2 ^ (32 * v.length) ∧
    toBus (shiftValue v (-(d : Int))) = toBus v / 2 ^ d

/-- R197: `>>` by `d` is `SHIFT d` and `<<` by `d` is `SHIFT -d`; on one word they are the scalar `W[0] << d` and
`W[0] >> d` for `1 <= d <= 31`. -/
def Obligations.ShiftOperatorsAndOneWord : Prop :=
  (∀ (v : Bool) (d : Word), (Pseudo.shr v d).expand = some (.commands [.shift (!v) d])) ∧
  (∀ (v : Bool) (d : Word), d ≠ 0x80000000#32 → (Pseudo.shl v d).expand = some (.commands [.shift (!v) (-d)]) ∧
    sint32 (-d) = -sint32 d) ∧
  (∀ v : Bool, (Pseudo.shl v 0x80000000#32).expand = none) ∧
  ∀ (x : Word) (d : Nat), 1 ≤ d → d ≤ 31 →
    shiftValue [x] (d : Int) = [x <<< d] ∧ shiftValue [x] (-(d : Int)) = [x >>> d]

/-- R198: for `0 <= d < BIT_COUNT`, `SHIFT d` then `SHIFT -d` clears exactly the `d` highest indices, and `SHIFT -d`
then `SHIFT d` exactly the `d` lowest. -/
def Obligations.ShiftRoundTrips : Prop :=
  ∀ (s : State) (up down : Word) (d : Nat), d < 32 * s.w.length → sint32 up = (d : Int) → sint32 down = -(d : Int) →
    (∃ t u, exec (.shift true up) s = .next t ∧ exec (.shift true down) t = .next u ∧
      u.w.length = s.w.length ∧
      ∀ i < 32 * s.w.length, bitAt u.w i = if 32 * s.w.length - d ≤ i then false else bitAt s.w i) ∧
    (∃ t u, exec (.shift true down) s = .next t ∧ exec (.shift true up) t = .next u ∧
      u.w.length = s.w.length ∧ ∀ i < 32 * s.w.length, bitAt u.w i = if i < d then false else bitAt s.w i)

/-- R200: for `1 <= |c| <= BIT_COUNT - 1` the vacated end is zero-filled. -/
def Obligations.ShiftZeroFillsTheVacatedEnd : Prop :=
  ∀ (s : State) (wb : Bool) (arg : Word), 1 ≤ (sint32 arg).natAbs → (sint32 arg).natAbs ≤ 32 * s.w.length - 1 →
    ∃ t, exec (.shift wb arg) s = .next t ∧
      (0 < sint32 arg → ∀ i : Nat, (i : Int) < sint32 arg → bitAt t.out.resVec i = false) ∧
      (sint32 arg < 0 → ∀ i < 32 * s.w.length, 32 * s.w.length - (sint32 arg).natAbs ≤ i →
        bitAt t.out.resVec i = false)

/-! ### Forms and sequences -/

/-- R104: the value form of every class-W command shows what its mutator form writes, and leaves `W` unchanged; neither
form writes what the host drives on `MASK` or on any other bus. -/
def Obligations.ValueFormShowsWhatMutatorWrites : Prop :=
  ∀ (s : State) (c d : Command) (i : Instr), s.Built → decode s.w.length d = .ok i → i.isWriting = true →
    i.writeBack = true → c.arg = d.arg → c.mask = d.mask → c.cmd = d.cmd &&& 0xDF#8 →
    ∃ t u, step (s.present c) = .next t ∧ step (s.present d) = .next u ∧ t.w = s.w ∧ t.out = u.out ∧
      t.pending = s.pending ∧ u.pending = s.pending ∧ u.w = if u.out.err then s.w else u.out.resVec

/-- R55: repeating SET, UNSET, CLEAR, FILL, LOAD, AND, OR, ANDNOT or ORNOT with the same operands gives the same `W`;
for each of FLIP, XOR, XORNOT, NOTXOR, NAND, NOR, NOT and SHIFT there are a state and operands where it does not. -/
def Obligations.RepeatedCommands : Prop :=
  (∀ (s : State) (a : Word) (m : BitSet) (i : Instr), m.length = s.w.length →
    i ∈ [.set true a, .unset true a, .clear true, .fill true, .load true m, .and true m, .or true m, .andnot true m,
      .ornot true m] →
    ∃ t u, exec i s = .next t ∧ exec i t = .next u ∧ u.w = t.w) ∧
  (∀ mk ∈ [fun _ => Instr.flip true 3#32, Instr.xor true, Instr.xornot true, Instr.notxor true, Instr.nand true,
      Instr.nor true, fun _ => Instr.not true, fun _ => Instr.shift true 1#32],
    ∃ (s : State) (m : BitSet), s.Built ∧ m.length = s.w.length ∧
      ∃ t u, exec (mk m) s = .next t ∧ exec (mk m) t = .next u ∧ u.w ≠ t.w)

/-- R132: a bulk index sequence issued as SET, UNSET or FLIP applies the indices before the first invalid one and
keeps them, the invalid one changes nothing and reports IndexOutOfRange, and nothing after it is issued. -/
def Obligations.BulkSequenceStopsAtFirstError : Prop :=
  ∀ (mk : Word → Instr), (mk = .set true ∨ mk = .unset true ∨ mk = .flip true) →
    ∀ (pre post : List Word) (bad : Word) (s : State), s.Built → (∀ a ∈ pre, ValidIndex s.w.length a) →
      ¬ ValidIndex s.w.length bad →
      ∃ t u, runUntilError (pre.map mk) s = .next t ∧ (pre ≠ [] → t.out.err = false) ∧
        runUntilError ((pre ++ bad :: post).map mk) s = .next u ∧ u.w = t.w ∧ u.out.err = true ∧
        u.out.errCode = 1#2 ∧ t.w.length = s.w.length ∧
        (∀ k < 32 * s.w.length,
          (mk = .set true → bitAt t.w k = (bitAt s.w k || pre.any fun a => decide (sint32 a = (k : Int)))) ∧
          (mk = .unset true → bitAt t.w k = (bitAt s.w k && !pre.any fun a => decide (sint32 a = (k : Int)))) ∧
          (mk = .flip true → bitAt t.w k =
            (bitAt s.w k ^^ decide ((pre.countP fun a => decide (sint32 a = (k : Int))) % 2 = 1))))

/-- R131: iteration by GET yields every bit of `W` in strictly increasing index order and leaves `W` as it was; the
cursor's positions before the first advance and after the last one read IndexOutOfRange. -/
def Obligations.IterationYieldsBitsInOrder : Prop :=
  ∀ s : State, s.Built →
    (∃ t, enumerateAll s = .next ((List.range (32 * s.w.length)).map (bitAt s.w), t) ∧ t.w = s.w ∧
      t.pending = s.pending) ∧
    (∃ t, cursorRead cursorStart s = .next t ∧ ShowsError 1#2 s t) ∧
    (∃ t, cursorRead (32 * (s.w.length : Int)) s = .next t ∧ ShowsError 1#2 s t) ∧
    cursorAdvance s.w.length (32 * (s.w.length : Int)) = 32 * (s.w.length : Int) ∧
    cursorLive s.w.length (32 * (s.w.length : Int)) = false

/-- R82, R130: what the other pseudo-instructions become. -/
def Obligations.PseudoInstructionsExpand : Prop :=
  (∀ a : Word, (Pseudo.wrbit a true).expand = some (.commands [.set true a]) ∧
    (Pseudo.wrbit a false).expand = some (.commands [.unset true a])) ∧
  Pseudo.none.expand = some (.commands [.clear true]) ∧ Pseudo.all.expand = some (.commands [.fill true]) ∧
  Pseudo.read.expand = some (.commands [.nop]) ∧ Pseudo.iter.expand = some .iteration ∧
  ∀ l : List Word, (Pseudo.setbits l).expand = some (.commands (l.map (.set true))) ∧
    (Pseudo.unsetbits l).expand = some (.commands (l.map (.unset true))) ∧
    (Pseudo.flipbits l).expand = some (.commands (l.map (.flip true)))

/-- R81: whatever the assembler makes of a line, for an engine of `n` words, is well formed for that engine. -/
def Obligations.AssembledCommandsAreWellFormed : Prop :=
  ∀ (n : Nat) (line : List Char) (l : List Instr), assembleLine n line = .ok (some (.commands l)) →
    ∀ i ∈ l, i.wellFormed n = true
end

