-- ==== Sys2Proof/Laws/Value.lean ====
section
/-! SUPPORT. Bit-set values: reading back what a value was built from, and equality by words or by bits. -/

namespace Sys2Proof

@[simp] theorem length_ofWords (n : Nat) (f : Nat → Word) : (ofWords n f).length = n := by simp [ofWords]

theorem wordAt_ofWords (n : Nat) (f : Nat → Word) (j : Nat) :
    wordAt (ofWords n f) j = if j < n then f j else 0#32 := by
  unfold wordAt ofWords
  split <;> rename_i h
  · simp [List.getD_eq_getElem?_getD, h]
  · simp [List.getD_eq_getElem?_getD, h]

@[simp] theorem wordAt_ofWords_of_lt {n j : Nat} (f : Nat → Word) (h : j < n) : wordAt (ofWords n f) j = f j := by
  simp [wordAt_ofWords, h]

theorem wordAt_of_length_le {v : BitSet} {j : Nat} (h : v.length ≤ j) : wordAt v j = 0#32 := by
  simp [wordAt, List.getD_eq_getElem?_getD, h]

theorem wordAt_of_lt {v : BitSet} {j : Nat} (h : j < v.length) : wordAt v j = v[j] := by
  simp [wordAt, List.getD_eq_getElem?_getD, h]

/-- Two values of equal length with equal words are equal (R10). -/
theorem value_ext {v u : BitSet} (hl : v.length = u.length) (h : ∀ j < v.length, wordAt v j = wordAt u j) : v = u := by
  refine List.ext_getElem hl fun j h1 h2 => ?_
  have := h j h1
  rwa [wordAt_of_lt h1, wordAt_of_lt h2] at this

theorem ofWords_wordAt {n : Nat} {v : BitSet} (h : v.length = n) : ofWords n (wordAt v) = v := by
  refine value_ext (by simp [h]) fun j hj => ?_
  simp only [length_ofWords] at hj
  simp [hj]

theorem ofWords_congr {n : Nat} {f g : Nat → Word} (h : ∀ j < n, f j = g j) : ofWords n f = ofWords n g := by
  refine value_ext (by simp) fun j hj => ?_
  simp only [length_ofWords] at hj
  simp [hj, h]

@[simp] theorem getLsbD_wordOfBits (f : Nat → Bool) (b : Nat) :
    (wordOfBits f).getLsbD b = (decide (b < 32) && f b) := by
  by_cases h : b < 32
  · have := BitVec.getLsb_ofFnLE (fun b : Fin 32 => f b.val) ⟨b, h⟩
    simp only [wordOfBits, h, decide_true, Bool.true_and]
    rwa [BitVec.getLsbD_eq_getElem h]
  · simp [BitVec.getLsbD_of_ge _ _ (Nat.le_of_not_lt h), h]

@[simp] theorem length_ofBits (n : Nat) (f : Nat → Bool) : (ofBits n f).length = n := by simp [ofBits]

/-- Bit `i` of the value built from `f` is `f i`. -/
theorem bitAt_ofBits {n i : Nat} (f : Nat → Bool) (h : i < bitCount n) : bitAt (ofBits n f) i = f i := by
  unfold bitCount at h
  have hj : i / 32 < n := by omega
  have hb : i % 32 < 32 := by omega
  simp only [bitAt, ofBits, wordAt_ofWords_of_lt _ hj, getLsbD_wordOfBits, hb, decide_true, Bool.true_and]
  congr 1
  omega

theorem bitAt_ofWords {n i : Nat} (f : Nat → Word) (h : i < bitCount n) :
    bitAt (ofWords n f) i = (f (i / 32)).getLsbD (i % 32) := by
  unfold bitCount at h
  have hj : i / 32 < n := by omega
  simp [bitAt, hj]

theorem getLsbD_wordAt (v : BitSet) {j b : Nat} (hb : b < 32) : (wordAt v j).getLsbD b = bitAt v (32 * j + b) := by
  have h1 : (32 * j + b) / 32 = j := by omega
  have h2 : (32 * j + b) % 32 = b := by omega
  simp [bitAt, h1, h2]

theorem bitAt_of_le {v : BitSet} {i : Nat} (h : bitCount v.length ≤ i) : bitAt v i = false := by
  unfold bitCount at h
  have : v.length ≤ i / 32 := by omega
  simp [bitAt, wordAt_of_length_le this]

/-- Two values of equal length with equal bits are equal. -/
theorem value_ext_bits {v u : BitSet} (hl : v.length = u.length)
    (h : ∀ i < bitCount v.length, bitAt v i = bitAt u i) : v = u := by
  refine value_ext hl fun j hj => BitVec.eq_of_getLsbD_eq fun b hb => ?_
  rw [getLsbD_wordAt _ hb, getLsbD_wordAt _ hb]
  exact h _ (by unfold bitCount; omega)

@[simp] theorem length_zeros (n : Nat) : (zeros n).length = n := by simp [zeros]

@[simp] theorem length_ones (n : Nat) : (ones n).length = n := by simp [ones]

@[simp] theorem wordAt_zeros (n j : Nat) : wordAt (zeros n) j = 0#32 := by simp [zeros, wordAt_ofWords]

@[simp] theorem bitAt_zeros (n i : Nat) : bitAt (zeros n) i = false := by simp [bitAt]

theorem bitAt_ones {n i : Nat} (h : i < bitCount n) : bitAt (ones n) i = true := by
  rw [ones, bitAt_ofWords _ h]
  have : i % 32 < 32 := by omega
  simp only [BitVec.getLsbD_not, BitVec.getLsbD_zero, this, decide_true, Bool.not_false, Bool.and_self]

theorem zeros_eq_replicate (n : Nat) : zeros n = List.replicate n 0#32 := by simp [zeros, ofWords]

theorem ones_eq_replicate (n : Nat) : ones n = List.replicate n 0xFFFFFFFF#32 := by simp [ones, ofWords]

@[simp] theorem length_lift1 (f : Word → Word) (v : BitSet) : (lift1 f v).length = v.length := by simp [lift1]

@[simp] theorem length_lift2 (f : Word → Word → Word) (v m : BitSet) : (lift2 f v m).length = v.length := by
  simp [lift2]

theorem wordAt_lift1 {f : Word → Word} {v : BitSet} {j : Nat} (h : j < v.length) :
    wordAt (lift1 f v) j = f (wordAt v j) := by simp [lift1, h]

theorem wordAt_lift2 {f : Word → Word → Word} {v m : BitSet} {j : Nat} (h : j < v.length) :
    wordAt (lift2 f v m) j = f (wordAt v j) (wordAt m j) := by simp [lift2, h]

/-- A lane operation that acts bit by bit does so on the whole value. -/
theorem bitAt_lift2 {f : Word → Word → Word} {g : Bool → Bool → Bool}
    (hf : ∀ x y b, b < 32 → (f x y).getLsbD b = g (x.getLsbD b) (y.getLsbD b)) {v m : BitSet} {i : Nat}
    (h : i < bitCount v.length) : bitAt (lift2 f v m) i = g (bitAt v i) (bitAt m i) := by
  rw [lift2, bitAt_ofWords _ h, hf _ _ _ (Nat.mod_lt _ (by decide))]
  rfl

theorem bitAt_lift1 {f : Word → Word} {g : Bool → Bool}
    (hf : ∀ x b, b < 32 → (f x).getLsbD b = g (x.getLsbD b)) {v : BitSet} {i : Nat}
    (h : i < bitCount v.length) : bitAt (lift1 f v) i = g (bitAt v i) := by
  rw [lift1, bitAt_ofWords _ h, hf _ _ (Nat.mod_lt _ (by decide))]
  rfl

namespace Machine

/-- The comparator answers 1 exactly when every word agrees. -/
theorem equalValues_iff (v m : BitSet) : equalValues v m = true ↔ ∀ j < v.length, wordAt v j = wordAt m j := by
  simp [equalValues]

theorem isZero_iff (v : BitSet) : isZero v = true ↔ ∀ j < v.length, wordAt v j = 0#32 := by
  simp [isZero, equalValues_iff]

@[simp] theorem length_updateSelected (f : Word → Word → Word) (v : BitSet) (l : Location) :
    (updateSelected f v l).length = v.length := by simp [updateSelected]

theorem wordAt_updateSelected {f : Word → Word → Word} {v : BitSet} {l : Location} {j : Nat} (h : j < v.length) :
    wordAt (updateSelected f v l) j = if j = l.wordIndex then f (wordAt v j) l.mask else wordAt v j := by
  simp [updateSelected, Location.sel, h]

/-- Bit `b` of the decoder's mask is set exactly at `i mod 32`. -/
theorem getLsbD_locate_mask (i b : Nat) :
    (locate i).mask.getLsbD b = decide (b = i % 32) := by
  have : i % 32 < 32 := Nat.mod_lt _ (by decide)
  simp only [locate, BitVec.getLsbD_shiftLeft, BitVec.getLsbD_one]
  by_cases h : b = i % 32
  · simp [h, this]
  · by_cases h2 : b < i % 32
    · simp [h, h2]
    · have : b - i % 32 ≠ 0 := by omega
      simp [h, this]

/-- The selected update by bits: bit `i` goes through the word operation, every other bit stays. -/
theorem bitAt_updateSelected {f : Word → Word → Word} {g : Bool → Bool → Bool}
    (hf : ∀ x y b, b < 32 → (f x y).getLsbD b = g (x.getLsbD b) (y.getLsbD b)) (h0 : ∀ x, g x false = x)
    {v : BitSet} {i k : Nat} (hk : k < bitCount v.length) :
    bitAt (updateSelected f v (locate i)) k = if k = i then g (bitAt v k) true else bitAt v k := by
  have hm : k % 32 < 32 := Nat.mod_lt _ (by decide)
  have hj : k / 32 < v.length := by unfold bitCount at hk; omega
  unfold bitAt
  rw [wordAt_updateSelected hj]
  by_cases h : k / 32 = (locate i).wordIndex
  · rw [if_pos h, hf _ _ _ hm, getLsbD_locate_mask]
    have h' : k / 32 = i / 32 := h
    by_cases hki : k = i
    · simp [hki]
    · have : k % 32 ≠ i % 32 := by omega
      simp [hki, this, h0]
  · have : k ≠ i := by
      intro he
      exact h (by simp [locate, he])
    simp [h, this]

end Machine

end Sys2Proof
end

