-- ==== Sys2Proof/Laws/Decode.lean ====
section
/-! SUPPORT. The fields of a `CMD` word, taken apart and put together, and the operand `M`. -/

namespace Sys2Proof

@[simp] theorem rsvField_cmdWord (wb : Bool) (op : BitVec 5) : rsvField (cmdWord wb op) = 0 := by
  revert op
  cases wb <;> decide

@[simp] theorem wbField_cmdWord (wb : Bool) (op : BitVec 5) : wbField (cmdWord wb op) = wb := by
  revert op
  cases wb <;> decide

@[simp] theorem opField_cmdWord (wb : Bool) (op : BitVec 5) : opField (cmdWord wb op) = op.toNat := by
  revert op
  cases wb <;> decide

/-- A `CMD` with `RSV = 00` is its `WB` and `OP` fields put together. -/
theorem cmdWord_fields (cmd : BitVec 8) (h : rsvField cmd = 0) :
    cmdWord (wbField cmd) (BitVec.ofNat 5 (opField cmd)) = cmd := by
  revert cmd
  decide +kernel

@[simp] theorem length_maskValue (n : Nat) (c : Command) : (maskValue n c).length = n := by simp [maskValue]

@[simp] theorem wordAt_maskValue {n j : Nat} (c : Command) (h : j < n) :
    wordAt (maskValue n c) j = wordAt c.mask j := by simp [maskValue, h]

/-- A bus of exactly `n` words is read as it is. -/
theorem maskValue_of_length {n : Nat} {m : BitSet} (h : m.length = n) (cmd : BitVec 8) (arg : Word) :
    maskValue n { cmd := cmd, arg := arg, mask := m } = m := ofWords_wordAt h

theorem readerForm_ok {wb : Bool} {i j : Instr} (h : readerForm wb i = .ok j) : wb = false ∧ j = i := by
  cases wb with
  | true => cases h
  | false =>
    refine ⟨rfl, ?_⟩
    cases h
    rfl

end Sys2Proof
end

