-- ==== Sys2Proof/Laws/State.lean ====
section
/-! SUPPORT. What each update of the state leaves in each field. -/

namespace Sys2Proof.Machine

@[simp] theorem quiet_resVec (w : BitSet) : (quiet w).resVec = zeros w.length := rfl

@[simp] theorem quiet_resBit (w : BitSet) : (quiet w).resBit = false := rfl

@[simp] theorem quiet_resFlag (w : BitSet) : (quiet w).resFlag = false := rfl

@[simp] theorem quiet_resHash (w : BitSet) : (quiet w).resHash = 0#32 := rfl

@[simp] theorem quiet_err (w : BitSet) : (quiet w).err = false := rfl

@[simp] theorem quiet_errCode (w : BitSet) : (quiet w).errCode = 0#2 := rfl

@[simp] theorem quiet_q (w : BitSet) : (quiet w).q = w := rfl

@[simp] theorem raise_w (e : ErrorKind) (s : State) : (raise e s).w = s.w := rfl

@[simp] theorem raise_pending (e : ErrorKind) (s : State) : (raise e s).pending = s.pending := rfl

@[simp] theorem raise_out (e : ErrorKind) (s : State) : (raise e s).out = { quiet s.w with err := true, errCode := e.code } := rfl

@[simp] theorem idle_w (s : State) : (idle s).w = s.w := rfl

@[simp] theorem idle_pending (s : State) : (idle s).pending = s.pending := rfl

@[simp] theorem idle_out (s : State) : (idle s).out = quiet s.w := rfl

@[simp] theorem resetCycle_w (s : State) : (resetCycle s).w = zeros s.w.length := rfl

@[simp] theorem resetCycle_pending (s : State) : (resetCycle s).pending = s.pending := rfl

@[simp] theorem resetCycle_out (s : State) : (resetCycle s).out = quiet s.w := rfl

@[simp] theorem presentVec_w (wb : Bool) (v : BitSet) (s : State) : (presentVec wb v s).w = if wb then v else s.w := rfl

@[simp] theorem presentVec_pending (wb : Bool) (v : BitSet) (s : State) : (presentVec wb v s).pending = s.pending := rfl

@[simp] theorem presentVec_out (wb : Bool) (v : BitSet) (s : State) : (presentVec wb v s).out = { quiet s.w with resVec := v } := rfl

@[simp] theorem presentBit_w (b : Bool) (s : State) : (presentBit b s).w = s.w := rfl

@[simp] theorem presentBit_pending (b : Bool) (s : State) : (presentBit b s).pending = s.pending := rfl

@[simp] theorem presentBit_out (b : Bool) (s : State) : (presentBit b s).out = { quiet s.w with resBit := b } := rfl

@[simp] theorem presentFlag_w (b : Bool) (s : State) : (presentFlag b s).w = s.w := rfl

@[simp] theorem presentFlag_pending (b : Bool) (s : State) : (presentFlag b s).pending = s.pending := rfl

@[simp] theorem presentFlag_out (b : Bool) (s : State) : (presentFlag b s).out = { quiet s.w with resFlag := b } := rfl

@[simp] theorem presentHash_w (h : Word) (s : State) : (presentHash h s).w = s.w := rfl

@[simp] theorem presentHash_pending (h : Word) (s : State) : (presentHash h s).pending = s.pending := rfl

@[simp] theorem presentHash_out (h : Word) (s : State) : (presentHash h s).out = { quiet s.w with resHash := h } := rfl

@[simp] theorem State.advance_w (s : State) : s.advance.w = s.w := rfl

@[simp] theorem State.advance_pending (s : State) : s.advance.pending = (nextCycle s.pending).2 := rfl

@[simp] theorem State.advance_out (s : State) : s.advance.out = s.out := rfl

@[simp] theorem State.present_w (s : State) (c : Command) : (s.present c).w = s.w := rfl

@[simp] theorem State.present_pending (s : State) (c : Command) : (s.present c).pending = presenting c :: s.pending := rfl

@[simp] theorem State.present_out (s : State) (c : Command) : (s.present c).out = s.out := rfl

@[simp] theorem State.resetOf_w (n : Nat) : (State.resetOf n).w = zeros n := rfl

@[simp] theorem State.resetOf_pending (n : Nat) : (State.resetOf n).pending = [] := rfl

@[simp] theorem State.powerUp_w (k n : Nat) : (State.powerUp k n).w = ofWords n (Config.powerUpWord k) := rfl

@[simp] theorem State.powerUp_pending (k n : Nat) : (State.powerUp k n).pending = [] := rfl

@[simp] theorem nextCycle_cons (c : HostCycle) (rest : List HostCycle) : nextCycle (c :: rest) = (c, rest) := rfl

@[simp] theorem nextCycle_nil : nextCycle [] = (.driven idleInputs, []) := rfl

end Sys2Proof.Machine
end

