-- ==== Sys2Proof/Laws/Ops.lean ====
section
/-! SUPPORT. What each shared operation can do, said once: its outputs are good, and `W` keeps its words. -/

namespace Sys2Proof.Machine

theorem inBounds_iff (n : Nat) (i : Int) : inBounds n i = true ↔ 0 ≤ i ∧ i < 32 * (n : Int) := by
  simp [inBounds, bitCount]

/-- A single-bit command either passes its bounds check and has its result, or raises IndexOutOfRange (R121). -/
theorem withIndex_cases (arg : Word) (s : State) (result : Location → State) :
    (inBounds s.w.length (sint32 arg) = true ∧ withIndex arg s result = result (locate (sint32 arg).toNat)) ∨
      (inBounds s.w.length (sint32 arg) = false ∧ withIndex arg s result = raise .indexOutOfRange s) := by
  unfold withIndex
  cases inBounds s.w.length (sint32 arg) <;> simp

theorem quiet_good (w : BitSet) : (quiet w).Good w.length := by simp [Outputs.Good, quiet]

theorem raise_good (e : ErrorKind) (s : State) : (raise e s).out.Good s.w.length := by
  cases e <;> simp [Outputs.Good, raise, quiet, ErrorKind.code]

theorem presentVec_good (wb : Bool) {v : BitSet} (s : State) (h : v.length = s.w.length) :
    (presentVec wb v s).out.Good s.w.length := by simp [Outputs.Good, presentVec, quiet, h]

theorem presentBit_good (b : Bool) (s : State) : (presentBit b s).out.Good s.w.length := by
  simp [Outputs.Good, presentBit, quiet]

theorem presentFlag_good (b : Bool) (s : State) : (presentFlag b s).out.Good s.w.length := by
  simp [Outputs.Good, presentFlag, quiet]

theorem presentHash_good (h : Word) (s : State) : (presentHash h s).out.Good s.w.length := by
  simp [Outputs.Good, presentHash, quiet]

theorem presentVec_length (wb : Bool) {v : BitSet} (s : State) (h : v.length = s.w.length) :
    (presentVec wb v s).w.length = s.w.length := by cases wb <;> simp [h]

/-- SET, UNSET and FLIP: either the selected update is presented, or IndexOutOfRange is raised. -/
theorem changeBit_cases (f : Word → Word → Word) (wb : Bool) (arg : Word) (s : State) :
    (inBounds s.w.length (sint32 arg) = true ∧
        changeBit f wb arg s = presentVec wb (updateSelected f s.w (locate (sint32 arg).toNat)) s) ∨
      (inBounds s.w.length (sint32 arg) = false ∧ changeBit f wb arg s = raise .indexOutOfRange s) :=
  withIndex_cases arg s _

end Sys2Proof.Machine
end

