-- ==== Sys2Proof/Laws/Shift.lean ====
section
/-! SUPPORT. SHIFT's value: its length, and its bits as spec/44_shift.md R190 gives them in one formula. -/

namespace Sys2Proof.Machine

@[simp] theorem length_shiftValue (v : BitSet) (c : Int) : (shiftValue v c).length = v.length := by
  unfold shiftValue
  split
  · rfl
  · split <;> simp

/-- Bit `i` of the shifted value is bit `i - c` of the value, and 0 where there is none. -/
theorem bitAt_shiftValue {v : BitSet} {c : Int} {i : Nat} (h : i < bitCount v.length) :
    bitAt (shiftValue v c) i =
      (decide (0 ≤ (i : Int) - c ∧ (i : Int) - c < (bitCount v.length : Int)) && bitAt v ((i : Int) - c).toNat) := by
  unfold shiftValue
  split
  · rename_i hc
    subst hc
    have : (i : Int) < (bitCount v.length : Int) := by omega
    simp [this]
  · split
    · have : ¬ (0 ≤ (i : Int) - c ∧ (i : Int) - c < (bitCount v.length : Int)) := by omega
      simp only [bitAt_zeros, this, decide_false, Bool.false_and]
    · rw [bitAt_ofBits _ h]
      simp [Bool.decide_and]

@[simp] theorem length_subWordPass (v : BitSet) (s : Nat) (p : Bool) : (subWordPass v s p).length = v.length := by
  unfold subWordPass
  split
  · rfl
  · split <;> simp

@[simp] theorem length_wholeWordPass (t : BitSet) (k : Nat) (p : Bool) : (wholeWordPass t k p).length = t.length := by
  unfold wholeWordPass
  split <;> simp

@[simp] theorem length_shiftByWords (v : BitSet) (c : Int) : (shiftByWords v c).length = v.length := by
  simp [shiftByWords]

end Sys2Proof.Machine
end

