-- ==== Sys2Proof/Laws/Exec.lean ====
section
/-! SUPPORT. What one command can do, said once for all twenty-five. -/

namespace Sys2Proof.Machine

/-- Every command answers a next state, in which the host's list is as it was, `W` keeps its words, `Q` showed the old
`W` and the outputs are good; and either IndexOutOfRange was raised, or `W` holds `RES_VEC` (a mutator) or is
unchanged (anything else). -/
theorem exec_cases (i : Instr) (s : State) :
    ∃ t, exec i s = .next t ∧ t.pending = s.pending ∧ t.w.length = s.w.length ∧ t.out.q = s.w ∧
      t.out.Good s.w.length ∧ (t = raise .indexOutOfRange s ∨
        t.out.err = false ∧ t.w = if i.isWriting && i.writeBack then t.out.resVec else s.w) := by
  cases i <;> refine ⟨_, rfl, ?_⟩
  case get arg =>
    rcases withIndex_cases arg s (fun l => presentBit (bitTest (wordAt s.w l.wordIndex) l.mask) s) with
      ⟨_, e⟩ | ⟨_, e⟩ <;> rw [e] <;> simp [Outputs.Good, ErrorKind.code, Instr.isWriting]
  case set wb arg =>
    rcases changeBit_cases (fun x mask => x ||| mask) wb arg s with ⟨_, e⟩ | ⟨_, e⟩ <;> rw [e] <;> cases wb <;>
      simp [Outputs.Good, ErrorKind.code, Instr.isWriting, Instr.writeBack]
  case unset wb arg =>
    rcases changeBit_cases (fun x mask => x &&& ~~~mask) wb arg s with ⟨_, e⟩ | ⟨_, e⟩ <;> rw [e] <;> cases wb <;>
      simp [Outputs.Good, ErrorKind.code, Instr.isWriting, Instr.writeBack]
  case flip wb arg =>
    rcases changeBit_cases (fun x mask => x ^^^ mask) wb arg s with ⟨_, e⟩ | ⟨_, e⟩ <;> rw [e] <;> cases wb <;>
      simp [Outputs.Good, ErrorKind.code, Instr.isWriting, Instr.writeBack]
  all_goals simp [Instr.isWriting, Instr.writeBack, idle, Outputs.Good, combine]
  all_goals split <;> simp

end Sys2Proof.Machine
end

