-- ==== Sys2Proof/Laws/Step.lean ====
section
/-! SUPPORT. Everything one step can do, by the host's next cycle. -/

namespace Sys2Proof.Machine

theorem step_of_built {s : State} (h : s.Built) : step s = cycle (nextCycle s.pending).1 s.advance := by
  simp [step, clockEdge, h]

theorem step_of_not_built {s : State} (h : ¬ s.Built) : step s = .refused .unsupportedWordCount := by
  simp [step, clockEdge, h]

/-- If a step answers `t`, the engine can be built and its cycle was a reset, idle, illegal or legal command. -/
theorem step_cases {s t : State} (h : step s = .next t) :
    s.Built ∧ ∃ p, (nextCycle s.pending).1 = .driven p ∧
      ((p.rst = true ∧ t = resetCycle s.advance) ∨
        (p.rst = false ∧ p.cmdValid = false ∧ t = idle s.advance) ∨
        (p.rst = false ∧ p.cmdValid = true ∧ ∃ e, decode s.w.length p.command = .error e ∧
          t = raise .illegalCommand s.advance) ∨
        (p.rst = false ∧ p.cmdValid = true ∧ ∃ i, decode s.w.length p.command = .ok i ∧
          exec i s.advance = .next t)) := by
  by_cases hb : s.Built
  · refine ⟨hb, ?_⟩
    rw [step_of_built hb] at h
    cases hc : (nextCycle s.pending).1 with
    | undefinedLevels => simp [hc, cycle] at h
    | driven p =>
      refine ⟨p, rfl, ?_⟩
      rw [hc] at h
      simp only [cycle, drivenCycle] at h
      cases hr : p.rst with
      | true => simp [hr] at h; exact .inl ⟨rfl, h.symm⟩
      | false =>
        cases hv : p.cmdValid with
        | false => simp [hr, hv] at h; exact .inr (.inl ⟨rfl, rfl, h.symm⟩)
        | true =>
          simp only [hr, hv, commandCycle, State.advance_w] at h
          cases hd : decode s.w.length p.command with
          | error e => simp [hd] at h; exact .inr (.inr (.inl ⟨rfl, rfl, e, rfl, h.symm⟩))
          | ok i => simp [hd] at h; exact .inr (.inr (.inr ⟨rfl, rfl, i, rfl, h⟩))
  · rw [step_of_not_built hb] at h
    cases h

/-- A presented command, on an engine that can be built. -/
theorem step_present {s : State} (h : s.Built) (c : Command) : step (s.present c) = commandCycle c s := by
  have hb : (s.present c).Built := h
  rw [step_of_built hb]
  rfl

end Sys2Proof.Machine
end

