-- ==== Sys2Proof/Laws/HostSequences.lean ====
section
/-! SUPPORT. The host-level sequences one command at a time, and the assembler's operands. -/

namespace Sys2Proof.Machine

@[simp] theorem runUntilError_nil (s : State) : runUntilError [] s = .next s := rfl

/-- After a command that completes, the host goes on unless it saw `ERR = 1`. -/
theorem runUntilError_cons {i : Instr} {rest : List Instr} {s t : State} (h : s.issue i = .next t) :
    runUntilError (i :: rest) s = if t.out.err then .next t else runUntilError rest t := by
  simp [runUntilError, h]

/-- Issuing a command is its cycle: its encoding on the ports of an engine that can be built. -/
theorem issue_of_built {s : State} (h : s.Built) (i : Instr) : s.issue i = commandCycle (encode s.w.length i) s :=
  step_present h _

/-- A word list the assembler accepts has exactly `n` words (R81). -/
theorem maskOperandText_length {n : Nat} {l : List Char} {m : BitSet} (h : maskOperandText n l = .ok m) :
    m.length = n := by
  unfold maskOperandText at h
  split at h <;> try cases h
  split at h <;> try cases h
  split at h
  · cases h
  · split at h <;> cases h
    assumption

/-- An accepted integer operand is in `[-2^31, 2^31-1]` and is placed as its pattern (R81). -/
theorem argOperand_ok {l : List Char} {a : Word} (h : argOperand l = .ok a) :
    ∃ k, parseInteger l = some k ∧ -(2 ^ 31) ≤ k ∧ k ≤ 2 ^ 31 - 1 ∧ a = BitVec.ofInt 32 k := by
  unfold argOperand at h
  split at h
  · cases h
  · rename_i k hk
    split at h <;> cases h
    rename_i hb
    simp only [Bool.and_eq_true, decide_eq_true_eq] at hb
    exact ⟨k, hk, hb.1, hb.2, rfl⟩

end Sys2Proof.Machine
end

