-- ==== Sys2Proof/Laws/PerInstr.lean ====
section
/-! SUPPORT. Per-instruction families. `CmdFields`: the fields of a command's `CMD` word are its own operation code, its
own `WB` and `RSV = 00`, and only a class-W command ever has `WB = 1` (spec/30_encoding.md R71, R75, R76). -/

namespace Sys2Proof.Laws

/-- The `CMD` word of `i` carries exactly its opcode, its `WB` bit and `RSV = 00`, on an engine of any word count. -/
def CmdFields.Statement (i : Instr) : Prop :=
  ∀ n : Nat, opField (encode n i).cmd = i.opcode.toNat ∧ wbField (encode n i).cmd = i.writeBack ∧
    rsvField (encode n i).cmd = 0 ∧ (i.isWriting = false → i.writeBack = false)

theorem CmdFields.nop : CmdFields.Statement .nop :=
  fun _ => ⟨opField_cmdWord _ _, wbField_cmdWord _ _, rsvField_cmdWord _ _, fun _ => rfl⟩

theorem CmdFields.get (arg : Word) : CmdFields.Statement (.get arg) :=
  fun _ => ⟨opField_cmdWord _ _, wbField_cmdWord _ _, rsvField_cmdWord _ _, fun _ => rfl⟩

theorem CmdFields.set (wb : Bool) (arg : Word) : CmdFields.Statement (.set wb arg) :=
  fun _ => ⟨opField_cmdWord _ _, wbField_cmdWord _ _, rsvField_cmdWord _ _, fun h => nomatch h⟩

theorem CmdFields.unset (wb : Bool) (arg : Word) : CmdFields.Statement (.unset wb arg) :=
  fun _ => ⟨opField_cmdWord _ _, wbField_cmdWord _ _, rsvField_cmdWord _ _, fun h => nomatch h⟩

theorem CmdFields.flip (wb : Bool) (arg : Word) : CmdFields.Statement (.flip wb arg) :=
  fun _ => ⟨opField_cmdWord _ _, wbField_cmdWord _ _, rsvField_cmdWord _ _, fun h => nomatch h⟩

theorem CmdFields.clear (wb : Bool) : CmdFields.Statement (.clear wb) :=
  fun _ => ⟨opField_cmdWord _ _, wbField_cmdWord _ _, rsvField_cmdWord _ _, fun h => nomatch h⟩

theorem CmdFields.fill (wb : Bool) : CmdFields.Statement (.fill wb) :=
  fun _ => ⟨opField_cmdWord _ _, wbField_cmdWord _ _, rsvField_cmdWord _ _, fun h => nomatch h⟩

theorem CmdFields.load (wb : Bool) (m : BitSet) : CmdFields.Statement (.load wb m) :=
  fun _ => ⟨opField_cmdWord _ _, wbField_cmdWord _ _, rsvField_cmdWord _ _, fun h => nomatch h⟩

theorem CmdFields.and (wb : Bool) (m : BitSet) : CmdFields.Statement (.and wb m) :=
  fun _ => ⟨opField_cmdWord _ _, wbField_cmdWord _ _, rsvField_cmdWord _ _, fun h => nomatch h⟩

theorem CmdFields.andnot (wb : Bool) (m : BitSet) : CmdFields.Statement (.andnot wb m) :=
  fun _ => ⟨opField_cmdWord _ _, wbField_cmdWord _ _, rsvField_cmdWord _ _, fun h => nomatch h⟩

theorem CmdFields.nand (wb : Bool) (m : BitSet) : CmdFields.Statement (.nand wb m) :=
  fun _ => ⟨opField_cmdWord _ _, wbField_cmdWord _ _, rsvField_cmdWord _ _, fun h => nomatch h⟩

theorem CmdFields.or (wb : Bool) (m : BitSet) : CmdFields.Statement (.or wb m) :=
  fun _ => ⟨opField_cmdWord _ _, wbField_cmdWord _ _, rsvField_cmdWord _ _, fun h => nomatch h⟩

theorem CmdFields.ornot (wb : Bool) (m : BitSet) : CmdFields.Statement (.ornot wb m) :=
  fun _ => ⟨opField_cmdWord _ _, wbField_cmdWord _ _, rsvField_cmdWord _ _, fun h => nomatch h⟩

theorem CmdFields.nor (wb : Bool) (m : BitSet) : CmdFields.Statement (.nor wb m) :=
  fun _ => ⟨opField_cmdWord _ _, wbField_cmdWord _ _, rsvField_cmdWord _ _, fun h => nomatch h⟩

theorem CmdFields.xor (wb : Bool) (m : BitSet) : CmdFields.Statement (.xor wb m) :=
  fun _ => ⟨opField_cmdWord _ _, wbField_cmdWord _ _, rsvField_cmdWord _ _, fun h => nomatch h⟩

theorem CmdFields.xornot (wb : Bool) (m : BitSet) : CmdFields.Statement (.xornot wb m) :=
  fun _ => ⟨opField_cmdWord _ _, wbField_cmdWord _ _, rsvField_cmdWord _ _, fun h => nomatch h⟩

theorem CmdFields.notxor (wb : Bool) (m : BitSet) : CmdFields.Statement (.notxor wb m) :=
  fun _ => ⟨opField_cmdWord _ _, wbField_cmdWord _ _, rsvField_cmdWord _ _, fun h => nomatch h⟩

theorem CmdFields.not (wb : Bool) : CmdFields.Statement (.not wb) :=
  fun _ => ⟨opField_cmdWord _ _, wbField_cmdWord _ _, rsvField_cmdWord _ _, fun h => nomatch h⟩

theorem CmdFields.shift (wb : Bool) (arg : Word) : CmdFields.Statement (.shift wb arg) :=
  fun _ => ⟨opField_cmdWord _ _, wbField_cmdWord _ _, rsvField_cmdWord _ _, fun h => nomatch h⟩

theorem CmdFields.eq (m : BitSet) : CmdFields.Statement (.eq m) :=
  fun _ => ⟨opField_cmdWord _ _, wbField_cmdWord _ _, rsvField_cmdWord _ _, fun _ => rfl⟩

theorem CmdFields.isempty : CmdFields.Statement .isempty :=
  fun _ => ⟨opField_cmdWord _ _, wbField_cmdWord _ _, rsvField_cmdWord _ _, fun _ => rfl⟩

theorem CmdFields.hasall (m : BitSet) : CmdFields.Statement (.hasall m) :=
  fun _ => ⟨opField_cmdWord _ _, wbField_cmdWord _ _, rsvField_cmdWord _ _, fun _ => rfl⟩

theorem CmdFields.hasany (m : BitSet) : CmdFields.Statement (.hasany m) :=
  fun _ => ⟨opField_cmdWord _ _, wbField_cmdWord _ _, rsvField_cmdWord _ _, fun _ => rfl⟩

theorem CmdFields.hasnone (m : BitSet) : CmdFields.Statement (.hasnone m) :=
  fun _ => ⟨opField_cmdWord _ _, wbField_cmdWord _ _, rsvField_cmdWord _ _, fun _ => rfl⟩

theorem CmdFields.hash : CmdFields.Statement .hash :=
  fun _ => ⟨opField_cmdWord _ _, wbField_cmdWord _ _, rsvField_cmdWord _ _, fun _ => rfl⟩

end Sys2Proof.Laws
end

