-- ==== Sys2Proof/Tests/Slice0.lean ====
section
/-! SUPPORT. The model's own tests, each on one step or one word. Expected words and results are those of
spec/30_encoding.md R75 and spec/95_test_vectors.md unless a comment says otherwise. -/

namespace Sys2Proof.Tests

open Sys2Proof Sys2Proof.Machine

/-- An engine right after reset, but with `v` in `W`. -/
def engine (v : BitSet) : State := { State.resetOf v.length with w := v }

/-- The state after one cycle with the command `(cmd, arg, mask)` on the ports. -/
def after (v : BitSet) (cmd : BitVec 8) (arg : Word) (mask : BitSet) : Option State :=
  match step ((engine v).present { cmd := cmd, arg := arg, mask := mask }) with
  | .next t => some t
  | .fault _ => none
  | .refused _ => none

/-- `W` and `RES_VEC` after it. -/
def vec (v : BitSet) (cmd : BitVec 8) (arg : Word) (mask : BitSet) : Option (BitSet × BitSet) :=
  (after v cmd arg mask).map fun t => (t.w, t.out.resVec)

/-- `RES_FLAG` and `ERR_CODE` after it. -/
def flag (v : BitSet) (cmd : BitVec 8) (mask : BitSet) : Option (Bool × BitVec 2) :=
  (after v cmd 0#32 mask).map fun t => (t.out.resFlag, t.out.errCode)

/-- What the decoder of a four-word engine makes of a command with `ARG = 5` and `MASK = [1,2,3,4]`. -/
def dec (cmd : BitVec 8) : Option Instr :=
  (decode 4 { cmd := cmd, arg := 5#32, mask := [1#32, 2#32, 3#32, 4#32] }).toOption

/-- The standard vector of spec/42_boolean.md. -/
def stdW : BitSet := [0x0000000C#32, 0xFFFFFFFF#32, 0x00000000#32, 0x12345678#32]

/-- Its mask. -/
def stdM : BitSet := [0x0000000A#32, 0x00000000#32, 0xFFFFFFFF#32, 0x0F0F0F0F#32]

/-! ### Well-formedness: the one check, on every command that has the operand -/


theorem test_wellFormed_refuses_short_masks :
    ([.load true [1#32], .and true [1#32], .andnot true [1#32], .nand true [1#32], .or true [1#32], .ornot true [1#32], .nor true [1#32], .xor true [1#32], .xornot true [1#32], .notxor true [1#32], .eq [1#32], .hasall [1#32], .hasany [1#32], .hasnone [1#32]] : List Instr).all
      (fun i => !i.wellFormed 4) = true := by decide

theorem test_wellFormed_refuses_long_masks :
    (Instr.load false [1#32, 2#32]).wellFormed 1 = false ∧ (Instr.load false [1#32, 2#32]).wellFormed 2 = true := by decide

/-! ### Decoding: every constructor, from words written out bit by bit from R71 and R75 -/

theorem test_decode_nop : dec 0b00000000#8 = some .nop ∧ dec 0b00100000#8 = none ∧
    dec 0b10000000#8 = none := by decide

theorem test_decode_get : dec 0b00000001#8 = some (.get 5#32) ∧ dec 0b00100001#8 = none ∧
    dec 0b10000001#8 = none := by decide

theorem test_decode_set : dec 0b00000010#8 = some (.set false 5#32) ∧
    dec 0b00100010#8 = some (.set true 5#32) ∧ dec 0b01100010#8 = none := by decide

theorem test_decode_unset : dec 0b00000011#8 = some (.unset false 5#32) ∧
    dec 0b00100011#8 = some (.unset true 5#32) ∧ dec 0b01100011#8 = none := by decide

theorem test_decode_flip : dec 0b00000100#8 = some (.flip false 5#32) ∧
    dec 0b00100100#8 = some (.flip true 5#32) ∧ dec 0b01100100#8 = none := by decide

theorem test_decode_clear : dec 0b00000101#8 = some (.clear false) ∧
    dec 0b00100101#8 = some (.clear true) ∧ dec 0b01100101#8 = none := by decide

theorem test_decode_fill : dec 0b00000110#8 = some (.fill false) ∧
    dec 0b00100110#8 = some (.fill true) ∧ dec 0b01100110#8 = none := by decide

theorem test_decode_load : dec 0b00000111#8 = some (.load false [1#32, 2#32, 3#32, 4#32]) ∧
    dec 0b00100111#8 = some (.load true [1#32, 2#32, 3#32, 4#32]) ∧ dec 0b01100111#8 = none := by decide

theorem test_decode_and : dec 0b00001000#8 = some (.and false [1#32, 2#32, 3#32, 4#32]) ∧
    dec 0b00101000#8 = some (.and true [1#32, 2#32, 3#32, 4#32]) ∧ dec 0b01101000#8 = none := by decide

theorem test_decode_andnot : dec 0b00001001#8 = some (.andnot false [1#32, 2#32, 3#32, 4#32]) ∧
    dec 0b00101001#8 = some (.andnot true [1#32, 2#32, 3#32, 4#32]) ∧ dec 0b01101001#8 = none := by decide

theorem test_decode_nand : dec 0b00001010#8 = some (.nand false [1#32, 2#32, 3#32, 4#32]) ∧
    dec 0b00101010#8 = some (.nand true [1#32, 2#32, 3#32, 4#32]) ∧ dec 0b01101010#8 = none := by decide

theorem test_decode_or : dec 0b00001011#8 = some (.or false [1#32, 2#32, 3#32, 4#32]) ∧
    dec 0b00101011#8 = some (.or true [1#32, 2#32, 3#32, 4#32]) ∧ dec 0b01101011#8 = none := by decide

theorem test_decode_ornot : dec 0b00001100#8 = some (.ornot false [1#32, 2#32, 3#32, 4#32]) ∧
    dec 0b00101100#8 = some (.ornot true [1#32, 2#32, 3#32, 4#32]) ∧ dec 0b01101100#8 = none := by decide

theorem test_decode_nor : dec 0b00001101#8 = some (.nor false [1#32, 2#32, 3#32, 4#32]) ∧
    dec 0b00101101#8 = some (.nor true [1#32, 2#32, 3#32, 4#32]) ∧ dec 0b01101101#8 = none := by decide

theorem test_decode_xor : dec 0b00001110#8 = some (.xor false [1#32, 2#32, 3#32, 4#32]) ∧
    dec 0b00101110#8 = some (.xor true [1#32, 2#32, 3#32, 4#32]) ∧ dec 0b01101110#8 = none := by decide

theorem test_decode_xornot : dec 0b00001111#8 = some (.xornot false [1#32, 2#32, 3#32, 4#32]) ∧
    dec 0b00101111#8 = some (.xornot true [1#32, 2#32, 3#32, 4#32]) ∧ dec 0b01101111#8 = none := by decide

theorem test_decode_notxor : dec 0b00010000#8 = some (.notxor false [1#32, 2#32, 3#32, 4#32]) ∧
    dec 0b00110000#8 = some (.notxor true [1#32, 2#32, 3#32, 4#32]) ∧ dec 0b01110000#8 = none := by decide

theorem test_decode_not : dec 0b00010001#8 = some (.not false) ∧
    dec 0b00110001#8 = some (.not true) ∧ dec 0b01110001#8 = none := by decide

theorem test_decode_shift : dec 0b00010100#8 = some (.shift false 5#32) ∧
    dec 0b00110100#8 = some (.shift true 5#32) ∧ dec 0b01110100#8 = none := by decide

theorem test_decode_eq : dec 0b00011000#8 = some (.eq [1#32, 2#32, 3#32, 4#32]) ∧ dec 0b00111000#8 = none ∧
    dec 0b10011000#8 = none := by decide

theorem test_decode_isempty : dec 0b00011001#8 = some .isempty ∧ dec 0b00111001#8 = none ∧
    dec 0b10011001#8 = none := by decide

theorem test_decode_hasall : dec 0b00011010#8 = some (.hasall [1#32, 2#32, 3#32, 4#32]) ∧ dec 0b00111010#8 = none ∧
    dec 0b10011010#8 = none := by decide

theorem test_decode_hasany : dec 0b00011011#8 = some (.hasany [1#32, 2#32, 3#32, 4#32]) ∧ dec 0b00111011#8 = none ∧
    dec 0b10011011#8 = none := by decide

theorem test_decode_hasnone : dec 0b00011100#8 = some (.hasnone [1#32, 2#32, 3#32, 4#32]) ∧ dec 0b00111100#8 = none ∧
    dec 0b10011100#8 = none := by decide

theorem test_decode_hash : dec 0b00011101#8 = some .hash ∧ dec 0b00111101#8 = none ∧
    dec 0b10011101#8 = none := by decide

theorem test_decode_reserved_opcodes :
    ([0b00010010#8, 0b00010011#8, 0b00010101#8, 0b00010110#8, 0b00010111#8, 0b00011110#8, 0b00011111#8] : List (BitVec 8)).all
      (fun c => (dec c).isNone && (dec (c ||| 0x20#8)).isNone) = true := by decide

/-- The opcode table's numbering: eight bits, `CMD` in bits 7:0 (log entry 10). -/
theorem test_decodeTableWord : decodeTableWord 8 0x34 = some (.shift true 0#32) ∧ decodeTableWord 8 0x12 = none ∧
    decodeTableWord 8 0x28 = some (.and true [0#32, 0#32, 0#32, 0#32]) := by decide

/-! ### One step each -/

theorem test_nop : (after [1#32, 2#32, 3#32, 4#32] 0x00#8 7#32 [9#32]).map (fun t => (t.w, t.out)) =
    some ([1#32, 2#32, 3#32, 4#32], quiet [1#32, 2#32, 3#32, 4#32]) := by decide

theorem test_clear :
    vec [1#32, 2#32, 3#32, 4#32] 0x25#8 0x0#32 [] = some ([0x0#32, 0x0#32, 0x0#32, 0x0#32], [0x0#32, 0x0#32, 0x0#32, 0x0#32]) := by decide

theorem test_clear_value :
    vec [1#32, 2#32, 3#32, 4#32] 0x05#8 0x0#32 [] = some ([0x1#32, 0x2#32, 0x3#32, 0x4#32], [0x0#32, 0x0#32, 0x0#32, 0x0#32]) := by decide

theorem test_fill :
    vec [0x0#32, 0x0#32, 0x0#32, 0x0#32] 0x26#8 0x0#32 [] = some ([0xFFFFFFFF#32, 0xFFFFFFFF#32, 0xFFFFFFFF#32, 0xFFFFFFFF#32], [0xFFFFFFFF#32, 0xFFFFFFFF#32, 0xFFFFFFFF#32, 0xFFFFFFFF#32]) := by decide

theorem test_load :
    vec [0x0#32, 0x0#32, 0x0#32, 0x0#32] 0x27#8 0x0#32 [0x5#32, 0x6#32, 0x7#32, 0x8#32] = some ([0x5#32, 0x6#32, 0x7#32, 0x8#32], [0x5#32, 0x6#32, 0x7#32, 0x8#32]) := by decide

theorem test_load_value :
    vec [0x0#32, 0x0#32, 0x0#32, 0x0#32] 0x07#8 0x0#32 [0x5#32, 0x6#32, 0x7#32, 0x8#32] = some ([0x0#32, 0x0#32, 0x0#32, 0x0#32], [0x5#32, 0x6#32, 0x7#32, 0x8#32]) := by decide

theorem test_get : ([127#32, 126#32, 128#32, 0xFFFFFFFF#32].map fun i =>
    (after [0#32, 0#32, 0#32, 0x80000000#32] 0x01#8 i []).map fun t => (t.out.resBit, t.out.errCode)) =
    [some (true, 0#2), some (false, 0#2), some (false, 1#2), some (false, 1#2)] := by decide

theorem test_set : vec [0#32, 0#32, 0#32, 0#32] 0x22#8 127#32 [] =
      some ([0#32, 0#32, 0#32, 0x80000000#32], [0#32, 0#32, 0#32, 0x80000000#32]) ∧
    vec [0#32, 0#32, 0#32, 0#32] 0x02#8 64#32 [] = some ([0#32, 0#32, 0#32, 0#32], [0#32, 0#32, 1#32, 0#32]) := by decide

theorem test_set_out_of_range : ([128#32, 0xFFFFFFFF#32, 0x7FFFFFFF#32, 0x80000000#32].map fun i =>
    (after [0#32, 0#32, 0#32, 0#32] 0x22#8 i []).map fun t => (t.w, t.out.err, t.out.errCode)) =
    List.replicate 4 (some ([0#32, 0#32, 0#32, 0#32], true, 1#2)) := by decide

theorem test_unset :
    vec [0xFFFFFFFF#32, 0xFFFFFFFF#32, 0xFFFFFFFF#32, 0xFFFFFFFF#32] 0x23#8 0x5F#32 [] = some ([0xFFFFFFFF#32, 0xFFFFFFFF#32, 0x7FFFFFFF#32, 0xFFFFFFFF#32], [0xFFFFFFFF#32, 0xFFFFFFFF#32, 0x7FFFFFFF#32, 0xFFFFFFFF#32]) := by decide

theorem test_unset_clear_bit :
    vec [0x1#32, 0x0#32, 0x0#32, 0x0#32] 0x23#8 0x1#32 [] = some ([0x1#32, 0x0#32, 0x0#32, 0x0#32], [0x1#32, 0x0#32, 0x0#32, 0x0#32]) := by decide

theorem test_flip_on :
    vec [0x0#32, 0x0#32, 0x0#32, 0x0#32] 0x24#8 0x21#32 [] = some ([0x0#32, 0x2#32, 0x0#32, 0x0#32], [0x0#32, 0x2#32, 0x0#32, 0x0#32]) := by decide

theorem test_flip_off :
    vec [0x0#32, 0x2#32, 0x0#32, 0x0#32] 0x24#8 0x21#32 [] = some ([0x0#32, 0x0#32, 0x0#32, 0x0#32], [0x0#32, 0x0#32, 0x0#32, 0x0#32]) := by decide

theorem test_and : vec stdW 0x08#8 0#32 stdM = some (stdW, [0x8#32, 0x0#32, 0x0#32, 0x2040608#32]) ∧
    vec stdW 0x28#8 0#32 stdM = some ([0x8#32, 0x0#32, 0x0#32, 0x2040608#32], [0x8#32, 0x0#32, 0x0#32, 0x2040608#32]) := by decide +kernel

theorem test_andnot : vec stdW 0x09#8 0#32 stdM = some (stdW, [0x4#32, 0xFFFFFFFF#32, 0x0#32, 0x10305070#32]) ∧
    vec stdW 0x29#8 0#32 stdM = some ([0x4#32, 0xFFFFFFFF#32, 0x0#32, 0x10305070#32], [0x4#32, 0xFFFFFFFF#32, 0x0#32, 0x10305070#32]) := by decide +kernel

theorem test_nand : vec stdW 0x0A#8 0#32 stdM = some (stdW, [0xFFFFFFF7#32, 0xFFFFFFFF#32, 0xFFFFFFFF#32, 0xFDFBF9F7#32]) ∧
    vec stdW 0x2A#8 0#32 stdM = some ([0xFFFFFFF7#32, 0xFFFFFFFF#32, 0xFFFFFFFF#32, 0xFDFBF9F7#32], [0xFFFFFFF7#32, 0xFFFFFFFF#32, 0xFFFFFFFF#32, 0xFDFBF9F7#32]) := by decide +kernel

theorem test_or : vec stdW 0x0B#8 0#32 stdM = some (stdW, [0xE#32, 0xFFFFFFFF#32, 0xFFFFFFFF#32, 0x1F3F5F7F#32]) ∧
    vec stdW 0x2B#8 0#32 stdM = some ([0xE#32, 0xFFFFFFFF#32, 0xFFFFFFFF#32, 0x1F3F5F7F#32], [0xE#32, 0xFFFFFFFF#32, 0xFFFFFFFF#32, 0x1F3F5F7F#32]) := by decide +kernel

theorem test_ornot : vec stdW 0x0C#8 0#32 stdM = some (stdW, [0xFFFFFFFD#32, 0xFFFFFFFF#32, 0x0#32, 0xF2F4F6F8#32]) ∧
    vec stdW 0x2C#8 0#32 stdM = some ([0xFFFFFFFD#32, 0xFFFFFFFF#32, 0x0#32, 0xF2F4F6F8#32], [0xFFFFFFFD#32, 0xFFFFFFFF#32, 0x0#32, 0xF2F4F6F8#32]) := by decide +kernel

theorem test_nor : vec stdW 0x0D#8 0#32 stdM = some (stdW, [0xFFFFFFF1#32, 0x0#32, 0x0#32, 0xE0C0A080#32]) ∧
    vec stdW 0x2D#8 0#32 stdM = some ([0xFFFFFFF1#32, 0x0#32, 0x0#32, 0xE0C0A080#32], [0xFFFFFFF1#32, 0x0#32, 0x0#32, 0xE0C0A080#32]) := by decide +kernel

theorem test_xor : vec stdW 0x0E#8 0#32 stdM = some (stdW, [0x6#32, 0xFFFFFFFF#32, 0xFFFFFFFF#32, 0x1D3B5977#32]) ∧
    vec stdW 0x2E#8 0#32 stdM = some ([0x6#32, 0xFFFFFFFF#32, 0xFFFFFFFF#32, 0x1D3B5977#32], [0x6#32, 0xFFFFFFFF#32, 0xFFFFFFFF#32, 0x1D3B5977#32]) := by decide +kernel

theorem test_xornot : vec stdW 0x0F#8 0#32 stdM = some (stdW, [0xFFFFFFF9#32, 0x0#32, 0x0#32, 0xE2C4A688#32]) ∧
    vec stdW 0x2F#8 0#32 stdM = some ([0xFFFFFFF9#32, 0x0#32, 0x0#32, 0xE2C4A688#32], [0xFFFFFFF9#32, 0x0#32, 0x0#32, 0xE2C4A688#32]) := by decide +kernel

theorem test_notxor : vec stdW 0x10#8 0#32 stdM = some (stdW, [0xFFFFFFF9#32, 0x0#32, 0x0#32, 0xE2C4A688#32]) ∧
    vec stdW 0x30#8 0#32 stdM = some ([0xFFFFFFF9#32, 0x0#32, 0x0#32, 0xE2C4A688#32], [0xFFFFFFF9#32, 0x0#32, 0x0#32, 0xE2C4A688#32]) := by decide +kernel

theorem test_not : vec stdW 0x11#8 0#32 stdM = some (stdW, [0xFFFFFFF3#32, 0x0#32, 0xFFFFFFFF#32, 0xEDCBA987#32]) ∧
    vec stdW 0x31#8 0#32 stdM = some ([0xFFFFFFF3#32, 0x0#32, 0xFFFFFFFF#32, 0xEDCBA987#32], [0xFFFFFFF3#32, 0x0#32, 0xFFFFFFFF#32, 0xEDCBA987#32]) := by decide +kernel

theorem test_isempty : flag [0#32, 0#32, 0#32, 0#32] 0x19#8 [] = some (true, 0#2) ∧
    flag [0#32, 0#32, 0#32, 0x80000000#32] 0x19#8 [] = some (false, 0#2) := by decide

theorem test_hasall : flag [0xF#32, 0#32, 0#32, 0#32] 0x1A#8 [5#32, 0#32, 0#32, 0#32] = some (true, 0#2) ∧
    flag [0xF#32, 0#32, 0#32, 0#32] 0x1A#8 [0x15#32, 0#32, 0#32, 0#32] = some (false, 0#2) := by decide

theorem test_hasany : flag [0xF#32, 0#32, 0#32, 0#32] 0x1B#8 [0x10#32, 0#32, 0#32, 1#32] = some (false, 0#2) ∧
    flag [0xF#32, 0#32, 0#32, 0#32] 0x1B#8 [0x18#32, 0#32, 0#32, 0#32] = some (true, 0#2) := by decide

theorem test_hasnone : flag [0xF#32, 0#32, 0#32, 0#32] 0x1C#8 [0x10#32, 0#32, 0#32, 1#32] = some (true, 0#2) ∧
    flag [0xF#32, 0#32, 0#32, 0#32] 0x1C#8 [0x18#32, 0#32, 0#32, 0#32] = some (false, 0#2) := by decide

theorem test_eq : flag [1#32, 0#32, 0#32, 0x80000000#32] 0x18#8 [1#32, 0#32, 0#32, 0x80000000#32] = some (true, 0#2) ∧
    flag [1#32, 0#32, 0#32, 0x80000000#32] 0x18#8 [1#32, 0#32, 0#32, 0#32] = some (false, 0#2) := by decide

theorem test_hash : ([[0#32, 0#32, 0#32, 0#32], [1#32, 0#32, 0#32, 0x80000000#32], [0xFFFFFFFF#32],
      [0x12345678#32, 0x9ABCDEF0#32, 0x0F0F0F0F#32, 0xF0F0F0F0#32]].map fun v =>
    (after v 0x1D#8 0#32 []).map fun t => t.out.resHash) =
    [some 0x00EF8F91#32, some 0x80F003F0#32, some 0x0000020E#32, some 0x1C4EACCA#32] := by decide

theorem test_hash_of_six_words : hashValue (zeros 6) = 0x8349EF51#32 ∧ hashValue (ones 6) = 0x818686F1#32 := by decide

theorem test_shift : ([0x1#32, 0xFFFFFFFC#32, 0x1F#32, 0x20#32, 0xFFFFFFDF#32, 0x5F#32, 0xFFFFFF81#32, 0x0#32, 0x80#32, 0x80000000#32].map fun c =>
    (after [0x12345678#32, 0x9ABCDEF0#32, 0xF0F0F0F#32, 0xF0F0F0F0#32] 0x14#8 c []).map fun t => t.out.resVec) =
    [some [0x2468ACF0#32, 0x3579BDE0#32, 0x1E1E1E1F#32, 0xE1E1E1E0#32],
      some [0x1234567#32, 0xF9ABCDEF#32, 0xF0F0F0#32, 0xF0F0F0F#32],
      some [0x0#32, 0x91A2B3C#32, 0xCD5E6F78#32, 0x7878787#32],
      some [0x0#32, 0x12345678#32, 0x9ABCDEF0#32, 0xF0F0F0F#32],
      some [0xCD5E6F78#32, 0x7878787#32, 0x78787878#32, 0x0#32],
      some [0x0#32, 0x0#32, 0x0#32, 0x91A2B3C#32],
      some [0x1#32, 0x0#32, 0x0#32, 0x0#32],
      some [0x12345678#32, 0x9ABCDEF0#32, 0xF0F0F0F#32, 0xF0F0F0F0#32],
      some [0x0#32, 0x0#32, 0x0#32, 0x0#32],
      some [0x0#32, 0x0#32, 0x0#32, 0x0#32]] ∧
    vec [0x80000001#32] 0x34#8 0xFFFFFFE1#32 [] = some ([1#32], [1#32]) := by decide +kernel

/-- R191-R194's passes on the same vectors. -/
theorem test_shiftByWords : ([1, (-4), 31, 32, (-33), 95, (-127)].map (shiftByWords [0x12345678#32, 0x9ABCDEF0#32, 0xF0F0F0F#32, 0xF0F0F0F0#32])) =
    [[0x2468ACF0#32, 0x3579BDE0#32, 0x1E1E1E1F#32, 0xE1E1E1E0#32],
      [0x1234567#32, 0xF9ABCDEF#32, 0xF0F0F0#32, 0xF0F0F0F#32],
      [0x0#32, 0x91A2B3C#32, 0xCD5E6F78#32, 0x7878787#32],
      [0x0#32, 0x12345678#32, 0x9ABCDEF0#32, 0xF0F0F0F#32],
      [0xCD5E6F78#32, 0x7878787#32, 0x78787878#32, 0x0#32],
      [0x0#32, 0x0#32, 0x0#32, 0x91A2B3C#32],
      [0x1#32, 0x0#32, 0x0#32, 0x0#32]] := by decide +kernel

/-! ### Errors, reset, idle -/

theorem test_illegal_beats_index : (after [0#32, 0#32, 0#32, 0x80000000#32] 0x21#8 0xFFFFFFFF#32 []).map
    (fun t => (t.w, t.out.err, t.out.errCode)) = some ([0#32, 0#32, 0#32, 0x80000000#32], true, 2#2) := by decide

theorem test_illegal_words : ([0x40#8, 0xE2#8, 0x12#8, 0x32#8, 0x20#8, 0x39#8, 0x3D#8].map fun c =>
    (after [1#32, 2#32] c 0#32 []).map fun t => (t.w, t.out.resHash, t.out.errCode)) =
    List.replicate 7 (some ([1#32, 2#32], 0#32, 2#2)) := by decide

/-- `RST = 1` with a FILL and with an illegal command: `W = ZERO`, no error. -/
theorem test_reset_wins : ([0x26#8, 0x40#8].map fun c =>
    match step { engine [1#32, 2#32] with pending := [.driven { rst := true, cmdValid := true, command := ⟨c, 0#32, []⟩ }] } with
    | .next t => some (t.w, t.out.err, t.out.resVec)
    | .fault _ => none
    | .refused _ => none) = List.replicate 2 (some ([0#32, 0#32], false, [0#32, 0#32])) := by decide

theorem test_idle_keeps_w : (match step { engine [1#32, 2#32] with pending :=
      [.driven { rst := false, cmdValid := false, command := ⟨0x26#8, 0#32, []⟩ }] } with
    | .next t => some (t.w, t.out)
    | .fault _ => none
    | .refused _ => none) = some ([1#32, 2#32], quiet [1#32, 2#32]) := by decide

theorem test_reset_runs_placed_word : (match step (State.reset.withFetchWord 8 0x26) with
    | .next t => some t.w
    | .fault _ => none
    | .refused _ => none) = some [0xFFFFFFFF#32, 0xFFFFFFFF#32, 0xFFFFFFFF#32, 0xFFFFFFFF#32] := by decide

/-! ### Host sequences and the assembler -/

/-- Program P2's bulk sequence: 5 and 40 stay set, 128 fails, 127 is never issued. -/
theorem test_bulk_partial : (match runUntilError ([5#32, 40#32, 128#32, 127#32].map (.set true)) (engine (zeros 4)) with
    | .next t => some (t.w, t.out.errCode)
    | .fault _ => none
    | .refused _ => none) = some ([0x20#32, 0x100#32, 0#32, 0#32], 1#2) := by decide

/-- V-L1-4: bits 0 and 3 of one word, in order. -/
theorem test_iteration : (match enumerateAll (engine [9#32]) with
    | .next r => some r.1
    | .fault _ => none
    | .refused _ => none) = some ([true, false, false, true] ++ List.replicate 28 false) := by decide +kernel

theorem test_assemble : ([['S', 'H', 'L', '.', 'V', ' ', '3', ';', 'x'], ['R', 'E', 'A', 'D'],
      ['W', 'R', 'B', 'I', 'T', ' ', '0', 'x', '1', 'F', ',', ' ', '0'], [' ', ';', 'n']].map fun l =>
    (assembleLine 4 l).toOption) =
    [some (some (.commands [.shift false 0xFFFFFFFD#32])), some (some (.commands [.nop])),
      some (some (.commands [.unset true 31#32])), some none] := by decide +kernel

/-- The assembler's refusals of R81 and R82: a short list, a class-R suffix, `SHL -2^31`, an operand out of range. -/
theorem test_assemble_refuses : ([['A', 'N', 'D', ' ', '[', '1', ',', '2', ']'], ['G', 'E', 'T', '.', 'V', ' ', '1'],
      ['S', 'H', 'L', ' ', '-', '2', '1', '4', '7', '4', '8', '3', '6', '4', '8'],
      ['S', 'E', 'T', ' ', '0', 'x', 'F', 'F', 'F', 'F', 'F', 'F', 'F', 'F']].map fun l =>
    match assembleLine 4 l with
    | .error e => some e
    | .ok _ => none) =
    [some .wordListLength, some .suffixNotAllowed, some .noNegation, some .integerOutOfRange] := by decide +kernel

/-! ### Witnesses: concrete states and operands that meet the hypotheses of each statement, at the bounds of each range -/

/-- The command `(cmd, arg, mask)`. -/
def com (cmd : BitVec 8) (arg : Word) (mask : BitSet) : Command := { cmd := cmd, arg := arg, mask := mask }

theorem witness_engine_built : (engine stdW).Built ∧ (engine [7#32]).Built ∧ ¬ (engine []).Built := by decide

theorem witness_DecodeEncodeRoundTrip : (Instr.and true stdM).wellFormed 4 = true ∧
    (Instr.shift true 5#32).wellFormed 4 = true := by decide

theorem witness_DecodedCommandReencodes : decode 4 (com 0x24#8 5#32 stdM) = .ok (.flip true 5#32) ∧
    decode 4 (com 0x34#8 5#32 stdM) = .ok (.shift true 5#32) ∧
    decode 4 (com 0x28#8 5#32 stdM) = .ok (.and true stdM) := by
  refine ⟨?_, ?_, ?_⟩ <;> simp [decode, com, rsvField, opField, wbField, maskValue]
  decide

theorem witness_IllegalEncodings : (engine stdW).Built ∧ illegalCmd 0x12#8 = true ∧ illegalCmd 0x40#8 = true ∧
    illegalCmd 0x20#8 = true := by decide

theorem witness_UnreadBusesHaveNoEffect : (com 0x28#8 5#32 stdM).cmd = (com 0x28#8 6#32 stdM).cmd ∧
    ∀ i, decode (engine stdW).w.length (com 0x28#8 5#32 stdM) = .ok i →
      (i.format = .fi ∨ i.format = .fc → (com 0x28#8 5#32 stdM).arg = (com 0x28#8 6#32 stdM).arg) ∧
      (i.format = .fm → ∀ j < (engine stdW).w.length,
        wordAt (com 0x28#8 5#32 stdM).mask j = wordAt (com 0x28#8 6#32 stdM).mask j) := by
  refine ⟨rfl, fun i h => ?_⟩
  simp [decode, com, rsvField, opField, wbField] at h
  subst h
  exact ⟨fun h => by simp [Instr.format] at h, fun _ _ _ => rfl⟩

theorem witness_UnreadBusesHaveNoEffect_arg : (com 0x34#8 5#32 stdM).cmd = (com 0x34#8 5#32 stdW).cmd ∧
    ∀ i, decode (engine stdW).w.length (com 0x34#8 5#32 stdM) = .ok i →
      (i.format = .fi ∨ i.format = .fc → (com 0x34#8 5#32 stdM).arg = (com 0x34#8 5#32 stdW).arg) ∧
      (i.format = .fm → ∀ j < (engine stdW).w.length,
        wordAt (com 0x34#8 5#32 stdM).mask j = wordAt (com 0x34#8 5#32 stdW).mask j) := by
  refine ⟨rfl, fun i h => ?_⟩
  simp [decode, com, rsvField, opField, wbField] at h
  subst h
  exact ⟨fun _ => rfl, fun h => by simp [Instr.format] at h⟩

/-- `stdW` with one input cycle to come. -/
def driving (rst valid : Bool) (c : Command) : State :=
  { engine stdW with pending := [.driven { rst := rst, cmdValid := valid, command := c }] }

theorem witness_StepRunsDecodedInstruction : (driving false true (com 0x34#8 5#32 [])).Built ∧
    (driving false true (com 0x34#8 5#32 [])).pending =
      .driven { rst := false, cmdValid := true, command := com 0x34#8 5#32 [] } :: [] ∧
    (decode 4 (com 0x34#8 5#32 [])).toOption = some (.shift true 5#32) := by decide

theorem witness_NopIsAnIdleCycle : (engine stdW).Built ∧ (com 0x00#8 5#32 stdM).cmd = 0x00#8 ∧
    (com 0x20#8 5#32 stdM).cmd = 0x20#8 := by decide

theorem witness_IdleCyclesKeepW : (driving false false (com 0x26#8 5#32 [])).Built ∧
    (driving false false (com 0x26#8 5#32 [])).pending =
      [.driven ⟨false, false, com 0x26#8 5#32 []⟩] ++ [] ∧
    ∀ x ∈ [HostCycle.driven ⟨false, false, com 0x26#8 5#32 []⟩],
      ∃ p, x = .driven p ∧ p.rst = false ∧ p.cmdValid = false :=
  ⟨by decide, by decide, fun x h => by simp at h; exact ⟨_, h, rfl, rfl⟩⟩

theorem witness_ResetCyclesClearW : (driving true true (com 0x26#8 5#32 [])).Built ∧
    (driving true true (com 0x26#8 5#32 [])).pending = [.driven ⟨true, true, com 0x26#8 5#32 []⟩] ++ [] ∧
    ∀ x ∈ [HostCycle.driven ⟨true, true, com 0x26#8 5#32 []⟩], ∃ p, x = .driven p ∧ p.rst = true :=
  ⟨by decide, by decide, fun x h => by simp at h; exact ⟨_, h, rfl⟩⟩

theorem witness_ErrorsOnlyReport : ∃ t, step ((engine stdW).present (com 0x22#8 128#32 [])) = .next t ∧
    t.out.err = true ∧ t.out.errCode = 1#2 := ⟨_, rfl, by decide, by decide⟩

theorem witness_ErrorsOnlyReport_illegal : ∃ t, step ((engine stdW).present (com 0x12#8 128#32 [])) = .next t ∧
    t.out.err = true := ⟨_, rfl, by decide⟩

theorem witness_ErrorPriority : (engine stdW).Built ∧ illegalCmd 0x21#8 = true ∧
    ∃ t, step ((engine stdW).present (com 0x01#8 0xFFFFFFFF#32 [])) = .next t ∧ t.out.errCode = 1#2 :=
  ⟨by decide, by decide, _, rfl, by decide⟩

theorem witness_StepStopsOnlyOutsideTheContract : ¬ (engine []).Built ∧ (engine stdW).Built ∧
    ({ engine stdW with pending := [.undefinedLevels] } : State).pending = .undefinedLevels :: [] ∧
    ∀ rest, (driving false true (com 0x26#8 5#32 [])).pending ≠ .undefinedLevels :: rest := by
  refine ⟨by decide, by decide, rfl, fun rest h => ?_⟩
  simp [driving] at h

theorem witness_ExhaustedHostListIdles : (engine stdW).Built ∧ (engine stdW).pending = [] := by decide

theorem witness_PlacedWordRunsNext : State.reset.Built ∧
    (decode State.reset.w.length (commandOfBits State.reset.w.length (0x34 % 2 ^ 8))).toOption =
      some (.shift true 0#32) := by decide

theorem witness_StepKeepsEngineInvariant : State.reset.Inv ∧
    ∃ t, step (State.reset.present (com 0x26#8 5#32 [])) = .next t := by
  refine ⟨⟨by decide, ?_⟩, _, rfl⟩
  unfold Outputs.Good
  decide

theorem witness_ResetMeetsEngineInvariant : 1 ≤ 67108863 ∧ 67108863 ≤ Config.maxWordCount := by decide

theorem witness_OnlyMutatorsAndResetChangeW : ∃ t, step ((engine stdW).present (com 0x25#8 5#32 [])) = .next t ∧
    t.w ≠ (engine stdW).w := ⟨_, rfl, by decide⟩

/-- Two states that differ in the recorded outputs only, with one presented command. -/
theorem witness_StepDependsOnWAndInputsOnly :
    let s := driving false true (com 0x25#8 5#32 [])
    let u := { s with out := { s.out with resBit := true } }
    s.w = u.w ∧ s.pending = u.pending ∧ s.out ≠ u.out ∧ (∃ t, step s = .next t) ∧ ∃ t, step u = .next t :=
  ⟨rfl, rfl, by decide, ⟨_, rfl⟩, _, rfl⟩

theorem witness_QShowsW : ∃ t u, step ((engine stdW).present (com 0x25#8 5#32 [])) = .next t ∧ step t = .next u :=
  ⟨_, _, rfl, rfl⟩

theorem witness_EveryRunCompletes : (driving false true (com 0x26#8 5#32 [])).Built ∧
    (driving false true (com 0x26#8 5#32 [])).HostKeepsLevels := by
  refine ⟨by decide, ?_⟩
  simp [State.HostKeepsLevels, driving]

theorem witness_BootFromPowerUp : 1 ≤ 4 ∧ 4 ≤ Config.maxWordCount ∧
    (PortInputs.mk true false (com 0x26#8 5#32 [])).rst = true := by decide

theorem witness_mask_operand : stdM.length = (engine stdW).w.length ∧ [7#32].length = (engine [9#32]).w.length := by decide

theorem witness_LoadAssignsTheMask : 1 ≤ 4 ∧ stdM.length = 4 ∧ stdM ≠ zeros 4 ∧ stdM ≠ ones 4 ∧
    (Instr.load true stdM).wellFormed 4 = true ∧ (engine stdW).w.length = 4 := by decide

theorem witness_ValidIndex : ValidIndex (engine stdW).w.length 0#32 ∧ ValidIndex (engine stdW).w.length 127#32 ∧
    ¬ ValidIndex (engine stdW).w.length 128#32 ∧ ¬ ValidIndex (engine stdW).w.length 0xFFFFFFFF#32 ∧
    ¬ ValidIndex (engine stdW).w.length 0x80000000#32 := by
  unfold ValidIndex
  decide

theorem witness_BoundsCheckComesFirst : sint32 0xFFFFFFFF#32 = -1 ∧ sint32 0x80000000#32 = -2 ^ 31 ∧
    sint32 128#32 = 32 * ((engine stdW).w.length : Int) ∧ sint32 0x7FFFFFFF#32 = 2 ^ 31 - 1 ∧
    sint32 127#32 = 32 * ((engine stdW).w.length : Int) - 1 := by decide

theorem witness_MaskVariantsMatchSingleBits : ValidIndex (engine stdW).w.length 5#32 ∧
    [0x20#32, 0#32, 0#32, 0#32].length = (engine stdW).w.length ∧
    ∀ k < 32 * (engine stdW).w.length, bitAt [0x20#32, 0#32, 0#32, 0#32] k = decide ((k : Int) = sint32 5#32) := by
  refine ⟨by unfold ValidIndex; decide, rfl, ?_⟩
  decide +kernel

theorem witness_QueriesAgree : [5#32, 0#32, 0#32, 0#32].length = (engine stdW).w.length ∧
    [4#32, 0#32, 0#32, 0#32] ≠ zeros (engine stdW).w.length ∧
    hasAllOf (engine stdW).w [4#32, 0#32, 0#32, 0#32] = true := by decide

theorem witness_EqualityIsAnEquivalence : equalValues stdW stdW = true ∧ stdW.length = (engine stdW).w.length := by decide

theorem witness_ShiftMovesEveryBit : sint32 0#32 = 0 ∧ 32 * (engine stdW).w.length ≤ (sint32 128#32).natAbs ∧
    32 * (engine stdW).w.length ≤ (sint32 0x80000000#32).natAbs := by decide

theorem witness_WordPassesEqualShift : ∀ c ∈ [(1 : Int), -1, 32, -33, 127, -127], 0 < c.natAbs ∧
    c.natAbs < 32 * stdW.length := by decide

theorem witness_ShiftOperatorsAndOneWord : (5#32 : Word) ≠ 0x80000000#32 ∧ 1 ≤ 31 ∧ 31 ≤ 31 := by decide

theorem witness_ShiftRoundTrips : 33 < 32 * (engine stdW).w.length ∧ sint32 33#32 = ((33 : Nat) : Int) ∧
    sint32 0xFFFFFFDF#32 = -((33 : Nat) : Int) := by decide

theorem witness_ShiftZeroFillsTheVacatedEnd : ∀ a ∈ [1#32, 127#32, 0xFFFFFFFF#32, 0xFFFFFF81#32],
    1 ≤ (sint32 a).natAbs ∧ (sint32 a).natAbs ≤ 32 * (engine stdW).w.length - 1 := by
  simp only [List.forall_mem_cons]
  exact ⟨by decide, by decide, by decide, by decide, fun _ h => by cases h⟩

theorem witness_ValueFormShowsWhatMutatorWrites : (engine stdW).Built ∧
    (decode (engine stdW).w.length (com 0x34#8 5#32 stdM)).toOption = some (.shift true 5#32) ∧
    (Instr.shift true 5#32).isWriting = true ∧ (Instr.shift true 5#32).writeBack = true ∧
    (com 0x14#8 5#32 stdM).cmd = (com 0x34#8 5#32 stdM).cmd &&& 0xDF#8 := by decide

theorem witness_BulkSequenceStopsAtFirstError : (engine stdW).Built ∧
    (∀ a ∈ [5#32, 40#32], ValidIndex (engine stdW).w.length a) ∧ ¬ ValidIndex (engine stdW).w.length 128#32 := by
  simp only [List.forall_mem_cons]
  unfold ValidIndex
  refine ⟨by decide, ⟨by decide, by decide, fun _ h => by cases h⟩, by decide⟩

theorem witness_AssembledCommandsAreWellFormed :
    assembleLine 1 ['O', 'R', ' ', '[', '7', ']'] = .ok (some (.commands [.or true [7#32]])) := rfl

end Sys2Proof.Tests
end

section
/-! Everything a value's flat bus says of the value follows from its bits: bus bit `i` is value bit `i`
(spec/00_scope.md R7, spec/30_encoding.md R74). -/

namespace Sys2Proof

/-- Below bit 32 a value shows its word 0; above it the rest of its words (R6). -/
theorem bitAt_cons (x : Word) (v : BitSet) (i : Nat) :
    bitAt (x :: v) i = if i < 32 then x.getLsbD i else bitAt v (i - 32) := by
  split
  case isTrue h => simp [bitAt, wordAt, Nat.div_eq_of_lt h, Nat.mod_eq_of_lt h]
  case isFalse h =>
    have hdiv : i / 32 = (i - 32) / 32 + 1 := by omega
    have hmod : i % 32 = (i - 32) % 32 := by omega
    simp [bitAt, wordAt, hdiv, hmod]

theorem testBit_toBus (v : BitSet) (i : Nat) : (toBus v).testBit i = bitAt v i := by
  induction v generalizing i with
  | nil => simp [toBus, bitAt, wordAt]
  | cons x v ih =>
    rw [toBus, Nat.add_comm, Nat.testBit_two_pow_mul_add _ x.isLt, bitAt_cons, ih, BitVec.testBit_toNat]

theorem toBus_lt (v : BitSet) : toBus v < 2 ^ (32 * v.length) :=
  Nat.lt_pow_two_of_testBit _ fun i hi => by rw [testBit_toBus, bitAt_of_le hi]

/-- Word `j` is bus bits `[32j+31 : 32j]`. -/
theorem word_of_toBus (v : BitSet) (j : Nat) : BitVec.ofNat 32 (toBus v >>> (32 * j)) = wordAt v j := by
  refine BitVec.eq_of_getLsbD_eq fun b hb => ?_
  rw [getLsbD_wordAt v hb, ← testBit_toBus, BitVec.getLsbD_ofNat]
  simp [hb, Nat.testBit_shiftRight]

theorem ofBus_toBus (v : BitSet) : ofBus v.length (toBus v) = v := by
  calc ofBus v.length (toBus v)
      = ofWords v.length (wordAt v) := ofWords_congr fun j _ => word_of_toBus v j
    _ = v := ofWords_wordAt rfl

/-- Settles O7: the bits by induction on the words, and from them the width, the words and the read-back. -/
theorem busBitIsValueBit : Obligations.BusBitIsValueBit := fun v =>
  ⟨toBus_lt v, testBit_toBus v, word_of_toBus v, ofBus_toBus v⟩

end Sys2Proof
end

section
/-! A cycle with its inputs at defined levels always has a next state, and what that state keeps. The refusals of the
step (log entries 6, 7) and the engine's invariant (spec/00_scope.md R5, spec/10_state.md R21) follow from it. -/

namespace Sys2Proof.Machine

/-- Whatever the host drives at defined levels, be it a reset, an idle cycle, an illegal or a legal command, the cycle
completes, consumes no more of the host's list, keeps the word count and shows good outputs (R25, R80, R288). -/
theorem drivenCycle_completes (p : PortInputs) (s : State) :
    ∃ t, drivenCycle p s = .next t ∧ t.pending = s.pending ∧ t.w.length = s.w.length ∧ t.out.Good s.w.length := by
  cases hr : p.rst with
  | true => exact ⟨resetCycle s, by simp [drivenCycle, hr], rfl, by simp, quiet_good s.w⟩
  | false =>
    cases hv : p.cmdValid with
    | false => exact ⟨idle s, by simp [drivenCycle, hr, hv], rfl, rfl, quiet_good s.w⟩
    | true =>
      have hcmd : drivenCycle p s = commandCycle p.command s := by simp [drivenCycle, hr, hv]
      cases hd : decode s.w.length p.command with
      | error e => exact ⟨raise .illegalCommand s, by simp [hcmd, commandCycle, hd], rfl, rfl, raise_good _ s⟩
      | ok i =>
        obtain ⟨t, hexec, hpending, hlength, -, hgood, -⟩ := exec_cases i s
        exact ⟨t, by simp [hcmd, commandCycle, hd, hexec], hpending, hlength, hgood⟩

/-- The step of an engine that can be built, in a cycle with its inputs at defined levels. -/
theorem step_completes {s : State} {p : PortInputs} (hb : s.Built) (hp : (nextCycle s.pending).1 = .driven p) :
    ∃ t, step s = .next t ∧ t.pending = (nextCycle s.pending).2 ∧ t.w.length = s.w.length ∧
      t.out.Good s.w.length := by
  rw [step_of_built hb, hp]
  exact drivenCycle_completes p s.advance

theorem step_of_undefinedLevels {s : State} {rest : List HostCycle} (hb : s.Built)
    (hp : s.pending = .undefinedLevels :: rest) : step s = .refused .undefinedInputLevels := by
  rw [step_of_built hb, hp]
  rfl

/-- The host's next cycle is at defined levels unless its list begins with one that is not; an exhausted list is an
idle cycle (log entry 3). -/
theorem nextCycle_driven {l : List HostCycle} (h : ∀ rest, l ≠ .undefinedLevels :: rest) :
    ∃ p, (nextCycle l).1 = .driven p := by
  match l with
  | [] => exact ⟨idleInputs, rfl⟩
  | .driven p :: _ => exact ⟨p, rfl⟩
  | .undefinedLevels :: rest => exact absurd rfl (h rest)

/-- The word count decides whether an engine can be built, so good outputs are all that is left of the invariant. -/
theorem inv_of_length_eq {s t : State} (hb : s.Built) (hl : t.w.length = s.w.length)
    (hg : t.out.Good s.w.length) : t.Inv := by
  unfold State.Inv State.Built
  rw [hl]
  exact ⟨hb, hg⟩

theorem resetOf_inv {n : Nat} (h1 : 1 ≤ n) (h2 : n ≤ Config.maxWordCount) : (State.resetOf n).Inv := by
  have hb : (State.resetOf n).Built := by simp [State.Built, h1, h2]
  have hout : (State.resetOf n).out = quiet (State.resetOf n).w := by simp [State.resetOf, quiet]
  exact ⟨hb, hout ▸ quiet_good _⟩

/-- Settles O18: a step that answers was a cycle at defined levels, and each of those keeps the word count and shows
good outputs. -/
theorem stepKeepsEngineInvariant : Obligations.StepKeepsEngineInvariant := by
  intro s t _ hstep
  obtain ⟨hb, p, hp, -⟩ := step_cases hstep
  obtain ⟨t', hstep', -, hlength, hgood⟩ := step_completes hb hp
  obtain rfl : t' = t := by simpa [hstep'] using hstep
  exact ⟨inv_of_length_eq hb hlength hgood, hlength⟩

/-- Settles O15: one law of the step for each of the three cases of the state. -/
theorem stepStopsOnlyOutsideTheContract : Obligations.StepStopsOnlyOutsideTheContract := by
  intro s
  refine ⟨step_of_not_built, fun hb _ hp => step_of_undefinedLevels hb hp, fun hb hp => ?_⟩
  obtain ⟨p, hnext⟩ := nextCycle_driven hp
  obtain ⟨t, hstep, -⟩ := step_completes hb hnext
  exact ⟨t, hstep⟩

/-- Settles O19: `State.reset` is the case `n = Config.wordCount`. -/
theorem resetMeetsEngineInvariant : Obligations.ResetMeetsEngineInvariant :=
  ⟨fun _ h1 h2 => resetOf_inv h1 h2, resetOf_inv (by decide) (by decide)⟩

end Sys2Proof.Machine
end

section
/-! What a cycle does, by what is on the ports: the reset, idle and command branches of spec/10_state.md R25 as laws of
the step, and from them what a cycle reads (R22, R27) and what it can leave in `W` (R21, R24, R55). -/

namespace Sys2Proof.Machine

/-! ### The branches of a cycle -/

theorem drivenCycle_of_reset {p : PortInputs} (hr : p.rst = true) (s : State) :
    drivenCycle p s = .next (resetCycle s) := by
  simp [drivenCycle, hr]

theorem drivenCycle_of_idle {p : PortInputs} (hr : p.rst = false) (hv : p.cmdValid = false) (s : State) :
    drivenCycle p s = .next (idle s) := by
  simp [drivenCycle, hr, hv]

theorem drivenCycle_of_command {p : PortInputs} (hr : p.rst = false) (hv : p.cmdValid = true) (s : State) :
    drivenCycle p s = commandCycle p.command s := by
  simp [drivenCycle, hr, hv]

theorem commandCycle_of_illegal {c : Command} {e : DecodeError} {s : State} (hd : decode s.w.length c = .error e) :
    commandCycle c s = .next (raise .illegalCommand s) := by
  simp [commandCycle, hd]

theorem commandCycle_of_legal {c : Command} {i : Instr} {s : State} (hd : decode s.w.length c = .ok i) :
    commandCycle c s = exec i s := by
  simp [commandCycle, hd]

theorem State.advance_of_cons {s : State} {c : HostCycle} {rest : List HostCycle} (hp : s.pending = c :: rest) :
    s.advance = { s with pending := rest } := by
  simp [State.advance, hp]

/-- An exhausted list is idle cycles, so a reset or a command was at the head of the list (log entry 3). -/
theorem pending_of_not_idle {l : List HostCycle} {p : PortInputs} (hp : (nextCycle l).1 = .driven p)
    (h : p.rst = true ∨ p.cmdValid = true) : ∃ rest, l = .driven p :: rest := by
  cases l with
  | nil =>
    obtain rfl : idleInputs = p := by simpa using hp
    simp [idleInputs] at h
  | cons c rest => exact ⟨rest, by simpa using hp⟩

theorem State.built_congr {s u : State} (hw : s.w = u.w) : s.Built ↔ u.Built := by
  unfold State.Built
  rw [hw]

/-- The step in an idle cycle, one the host drives or one past the end of its list. -/
theorem step_of_idle {s : State} {p : PortInputs} (hb : s.Built) (hp : (nextCycle s.pending).1 = .driven p)
    (hr : p.rst = false) (hv : p.cmdValid = false) : step s = .next (idle s.advance) := by
  rw [step_of_built hb, hp]
  exact drivenCycle_of_idle hr hv s.advance

theorem idle_showsNothing (s : State) : ShowsNothing s (idle s) := by
  simp [ShowsNothing, Ends]

/-- Settles O8: the cycle is the command branch of R25, and R80's decoding succeeds. -/
theorem stepRunsDecodedInstruction : Obligations.StepRunsDecodedInstruction := by
  intro s p rest i hb hp hr hv hd
  calc step s
      = drivenCycle p s.advance := by rw [step_of_built hb, hp]; rfl
    _ = commandCycle p.command s.advance := drivenCycle_of_command hr hv _
    _ = exec i s.advance := commandCycle_of_legal hd
    _ = exec i { s with pending := rest } := by rw [State.advance_of_cons hp]

/-- Settles O16: the idle cycle on an exhausted list moves past nothing. -/
theorem exhaustedHostListIdles : Obligations.ExhaustedHostListIdles := by
  intro s hb hp
  have hadvance : s.advance = s := by rw [State.advance, hp, nextCycle_nil, ← hp]
  have hstep : step s = .next (idle s) := by
    rw [step_of_idle hb (p := idleInputs) (by simp [hp]) rfl rfl, hadvance]
  exact ⟨idle s, hstep, idle_showsNothing s⟩

/-- Settles O17: placing a word is presenting the command its bits are. -/
theorem placedWordRunsNext : Obligations.PlacedWordRunsNext := by
  intro s nbits x i hb hd
  exact (step_present hb _).trans (commandCycle_of_legal hd)

/-! ### Runs of idle cycles -/

theorem run_succ_of_step {s t : State} (k : Nat) (h : step s = .next t) :
    Host.Core.run Sys2Proof.core (k + 1) s = Host.Core.run Sys2Proof.core k t := by
  have hcore : Sys2Proof.core.step s = .next t := h
  simp [Host.Core.run, hcore]

/-- Each idle cycle uses up one cycle of the host's list, and the last one's outputs are what is left showing. -/
theorem run_of_idle (c : HostCycle) (cs rest : List HostCycle) (s : State) (hb : s.Built)
    (hp : s.pending = c :: cs ++ rest)
    (hidle : ∀ x ∈ c :: cs, ∃ p, x = .driven p ∧ p.rst = false ∧ p.cmdValid = false) :
    Host.Core.run Sys2Proof.core (cs.length + 1) s = .next (idle { s with pending := rest }) := by
  obtain ⟨⟨p, rfl, hr, hv⟩, htail⟩ := List.forall_mem_cons.mp hidle
  have hstep : step s = .next (idle s.advance) := step_of_idle hb (by simp [hp]) hr hv
  rw [run_succ_of_step _ hstep]
  cases cs with
  | nil => rw [State.advance_of_cons hp]; rfl
  | cons d cs => exact run_of_idle d cs rest (idle s.advance) hb (by simp [hp]) htail

/-- Settles O10: by recursion on the list, the run ends with an idle cycle on the rest of it. -/
theorem idleCyclesKeepW : Obligations.IdleCyclesKeepW := by
  intro cs rest s hb hp hne hidle
  obtain ⟨c, cs, rfl⟩ := List.exists_cons_of_ne_nil hne
  exact ⟨_, run_of_idle c cs rest s hb hp hidle, idle_showsNothing _⟩

/-! ### What a cycle leaves in `W` and shows on `Q` -/

/-- A command changes `W` only as a mutator that completes without error, and to its result (R55, R80). -/
theorem exec_changes_w {i : Instr} {s t : State} (he : exec i s = .next t) (hne : t.w ≠ s.w) :
    i.isWriting = true ∧ i.writeBack = true ∧ t.out.err = false ∧ t.w = t.out.resVec := by
  obtain ⟨t', he', -, -, -, -, hcases⟩ := exec_cases i s
  obtain rfl : t' = t := by simpa [he'] using he
  obtain rfl | ⟨herr, hw⟩ := hcases
  · exact absurd rfl hne
  · by_cases hwrites : (i.isWriting && i.writeBack) = true
    · obtain ⟨hwriting, hback⟩ := Bool.and_eq_true_iff.mp hwrites
      exact ⟨hwriting, hback, herr, by rw [hw, if_pos hwrites]⟩
    · exact absurd (by rw [hw, if_neg hwrites]) hne

/-- During every cycle `Q` shows `W` as it was before the edge that ends the cycle (R24, R25). -/
theorem step_q {s t : State} (h : step s = .next t) : t.out.q = s.w := by
  obtain ⟨-, p, -, ⟨-, rfl⟩ | ⟨-, -, rfl⟩ | ⟨-, -, _, -, rfl⟩ | ⟨-, -, i, -, he⟩⟩ := step_cases h
  case inr.inr.inr =>
    obtain ⟨t', he', -, -, hq, -⟩ := exec_cases i s.advance
    obtain rfl : t' = t := by simpa [he'] using he
    exact hq
  all_goals rfl

/-- Settles O21: of the four cycles R25 knows, idle and illegal ones keep `W`, and a legal command changes it only as
`exec_changes_w` says. -/
theorem onlyMutatorsAndResetChangeW : Obligations.OnlyMutatorsAndResetChangeW := by
  intro s t hstep
  obtain ⟨hb, p, hp, hcases⟩ := step_cases hstep
  obtain ⟨t', hstep', -, hlength, -⟩ := step_completes hb hp
  obtain rfl : t' = t := by simpa [hstep'] using hstep
  refine ⟨hlength, fun hne => ?_⟩
  obtain ⟨hr, -⟩ | ⟨-, -, rfl⟩ | ⟨-, -, _, -, rfl⟩ | ⟨-, hv, i, hd, he⟩ := hcases
  · obtain ⟨rest, hpending⟩ := pending_of_not_idle hp (.inl hr)
    exact ⟨p, rest, hpending, .inl hr⟩
  · exact absurd rfl hne
  · exact absurd rfl hne
  · obtain ⟨rest, hpending⟩ := pending_of_not_idle hp (.inr hv)
    exact ⟨p, rest, hpending, .inr ⟨hv, i, hd, exec_changes_w he hne⟩⟩

/-- Settles O23: `Q` is `W` by definition, and each cycle's record of it is `step_q`. -/
theorem qShowsW : Obligations.QShowsW :=
  fun _ => ⟨rfl, fun _ hs => ⟨step_q hs, fun _ ht => step_q ht⟩⟩

/-! ### What a cycle reads -/

/-- The bounds check reads `W`'s word count only, so agreeing results make agreeing single-bit commands. -/
theorem withIndex_congr {s u : State} (arg : Word) {f g : Location → State} (hw : s.w = u.w)
    (hfg : ∀ l, g l = { f l with pending := u.pending }) :
    withIndex arg u g = { withIndex arg s f with pending := u.pending } := by
  unfold withIndex
  rw [← hw, hfg]
  split
  · rfl
  · simp [raise, hw]

/-- A command reads `W` and its operands: on two states with one `W` it writes and shows the same, and each keeps its
own host list (R27). -/
theorem exec_congr (i : Instr) {s u : State} (hw : s.w = u.w) :
    ∃ t, exec i s = .next t ∧ exec i u = .next { t with pending := u.pending } := by
  obtain ⟨w, ps, os⟩ := s
  obtain ⟨_, pu, ou⟩ := u
  obtain rfl : w = _ := hw
  cases i <;> refine ⟨_, rfl, ?_⟩
  case get | set | unset | flip => exact congrArg Host.Outcome.next (withIndex_congr _ rfl fun _ => rfl)
  all_goals rfl

/-- The same of a cycle with its inputs at defined levels: `RST`, `CMD_VALID` and the command are on the ports. -/
theorem drivenCycle_congr (p : PortInputs) {s u : State} (hw : s.w = u.w) :
    ∃ t, drivenCycle p s = .next t ∧ drivenCycle p u = .next { t with pending := u.pending } := by
  cases hr : p.rst with
  | true => exact ⟨_, drivenCycle_of_reset hr s, by rw [drivenCycle_of_reset hr u]; simp [resetCycle, hw]⟩
  | false =>
    cases hv : p.cmdValid with
    | false => exact ⟨_, drivenCycle_of_idle hr hv s, by rw [drivenCycle_of_idle hr hv u]; simp [idle, hw]⟩
    | true =>
      rw [drivenCycle_of_command hr hv, drivenCycle_of_command hr hv]
      cases hd : decode s.w.length p.command with
      | error e =>
        refine ⟨_, commandCycle_of_illegal hd, ?_⟩
        rw [commandCycle_of_illegal (hw ▸ hd)]
        simp [raise, hw]
      | ok i =>
        rw [commandCycle_of_legal hd, commandCycle_of_legal (hw ▸ hd)]
        exact exec_congr i hw

/-- Two states with one `W` and one next cycle make the same step, but for what is to be driven later (R22, R286). -/
theorem step_congr {s u t : State} (hw : s.w = u.w) (hc : (nextCycle s.pending).1 = (nextCycle u.pending).1)
    (h : step s = .next t) : step u = .next { t with pending := (nextCycle u.pending).2 } := by
  obtain ⟨hb, p, hp, -⟩ := step_cases h
  obtain ⟨t', hs, hu⟩ := drivenCycle_congr p (s := s.advance) (u := u.advance) hw
  have hst : step s = .next t' := by rw [step_of_built hb, hp]; exact hs
  obtain rfl : t' = t := by simpa [hst] using h
  rw [step_of_built ((State.built_congr hw).mp hb), ← hc, hp]
  exact hu

/-- The recorded outputs are not an input of any cycle (R27). -/
theorem cycle_eq_of_inputs_eq (c : HostCycle) {s u : State} (hw : s.w = u.w) (hp : s.pending = u.pending) :
    cycle c s = cycle c u := by
  cases c with
  | undefinedLevels => rfl
  | driven p =>
    obtain ⟨t, hs, hu⟩ := drivenCycle_congr p hw
    obtain ⟨t', hs', hpending, -⟩ := drivenCycle_completes p s
    obtain rfl : t' = t := by simpa [hs'] using hs
    calc drivenCycle p s
        = .next { t' with pending := u.pending } := by rw [hs, ← hp, ← hpending]
      _ = drivenCycle p u := hu.symm

/-- Settles O22: whether the engine can be built, the next cycle and what it reads are all in `W` and the host's list;
and of the list only the next cycle, by `step_congr`. -/
theorem stepDependsOnWAndInputsOnly : Obligations.StepDependsOnWAndInputsOnly := by
  constructor
  · intro s u hw hp
    have hbuilt := State.built_congr hw
    by_cases hb : s.Built
    · rw [step_of_built hb, step_of_built (hbuilt.mp hb), ← hp]
      exact cycle_eq_of_inputs_eq _ hw (by simp [hp])
    · rw [step_of_not_built hb, step_of_not_built (mt hbuilt.mpr hb)]
  · intro s u s' u' c rs ru hw hs hu hstep hstep'
    have hcongr := step_congr hw (by rw [hs, hu]; rfl) hstep
    obtain rfl : _ = u' := by simpa [hstep'] using hcongr.symm
    exact ⟨rfl, rfl⟩

end Sys2Proof.Machine
end

section
/-! Which commands leave `W` alone when they are executed again (spec/20_memory.md R55). A lane operation with operand
`y` does so exactly when applying it to its own result, with `y` again, changes nothing. -/

namespace Sys2Proof.Machine

/-! ### Word operations that a repeated operand does not change again -/

/-- Applying `f` a second time, with the same operand, leaves the word of the first time. -/
def Absorbs (f : Word → Word → Word) : Prop := ∀ x y, f (f x y) y = f x y

theorem absorbs_or : Absorbs fun x y => x ||| y := fun x y => by
  simp [BitVec.or_assoc]

theorem absorbs_and : Absorbs fun x y => x &&& y := fun x y => by
  simp [BitVec.and_assoc]

theorem absorbs_operand : Absorbs fun _ y => y := fun _ _ => rfl

/-- Complementing the operand keeps it the same operand both times. -/
theorem Absorbs.complement {f : Word → Word → Word} (hf : Absorbs f) : Absorbs fun x y => f x (~~~y) :=
  fun x y => hf x (~~~y)

theorem lift2_twice {f : Word → Word → Word} (hf : Absorbs f) (v m : BitSet) :
    lift2 f (lift2 f v m) m = lift2 f v m := by
  refine value_ext (by simp) fun j hj => ?_
  have hj' : j < v.length := by simpa using hj
  rw [wordAt_lift2 (by simpa using hj'), wordAt_lift2 hj', hf]

theorem updateSelected_twice {f : Word → Word → Word} (hf : Absorbs f) (v : BitSet) (l : Location) :
    updateSelected f (updateSelected f v l) l = updateSelected f v l := by
  refine value_ext (by simp) fun j hj => ?_
  have hj' : j < v.length := by simpa using hj
  rw [wordAt_updateSelected (by simpa using hj'), wordAt_updateSelected hj']
  split
  · exact hf _ _
  · rfl

/-! ### Commands that keep `W` when repeated -/

/-- Executing `i` twice from `s` leaves the `W` of executing it once. -/
def KeepsOnRepeat (s : State) (i : Instr) : Prop :=
  ∃ t u, exec i s = .next t ∧ exec i t = .next u ∧ u.w = t.w

theorem keepsOnRepeat_of_op {i : Instr} {op : State → State} (hexec : ∀ s, exec i s = .next (op s)) {s : State}
    (hop : (op (op s)).w = (op s).w) : KeepsOnRepeat s i :=
  ⟨_, _, hexec _, hexec _, hop⟩

theorem keepsOnRepeat_of_combine {i : Instr} {f : Word → Word → Word} {m : BitSet} (hf : Absorbs f)
    (hexec : ∀ s, exec i s = .next (combine f true m s)) (s : State) : KeepsOnRepeat s i :=
  keepsOnRepeat_of_op hexec (lift2_twice hf s.w m)

/-- What SET, UNSET and FLIP leave in `W`: the selected update, or `W` itself after IndexOutOfRange. -/
theorem changeBit_w (f : Word → Word → Word) (arg : Word) (s : State) :
    (changeBit f true arg s).w = if inBounds s.w.length (sint32 arg) then
      updateSelected f s.w (locate (sint32 arg).toNat) else s.w := by
  rcases changeBit_cases f true arg s with ⟨hin, e⟩ | ⟨hout, e⟩
  · simp [e, hin]
  · simp [e, hout]

/-- The word count decides the bounds check, so both times it passes or both times it fails. -/
theorem keepsOnRepeat_of_changeBit {i : Instr} {f : Word → Word → Word} {arg : Word} (hf : Absorbs f)
    (hexec : ∀ s, exec i s = .next (changeBit f true arg s)) (s : State) : KeepsOnRepeat s i := by
  refine keepsOnRepeat_of_op hexec ?_
  rw [changeBit_w f arg (changeBit f true arg s), changeBit_w f arg s]
  cases hin : inBounds s.w.length (sint32 arg) with
  | true => simp [hin, updateSelected_twice hf]
  | false => simp [hin]

theorem clear_keepsOnRepeat (s : State) : KeepsOnRepeat s (.clear true) :=
  keepsOnRepeat_of_op (fun _ => rfl) (by simp)

theorem fill_keepsOnRepeat (s : State) : KeepsOnRepeat s (.fill true) :=
  keepsOnRepeat_of_op (fun _ => rfl) (by simp)

/-! ### Commands that change `W` again -/

/-- On some engine, with some mask operand, executing the command `mk m` twice leaves another `W` than once. -/
def ChangesAgain (mk : BitSet → Instr) : Prop :=
  ∃ (s : State) (m : BitSet), s.Built ∧ m.length = s.w.length ∧
    ∃ t u, exec (mk m) s = .next t ∧ exec (mk m) t = .next u ∧ u.w ≠ t.w

/-- The engine of one word, right after reset but with `x` in it. -/
def oneWord (x : Word) : State := { State.resetOf 1 with w := [x] }

theorem oneWord_built (x : Word) : (oneWord x).Built := by
  simp [State.Built, oneWord, Config.maxWordCount]

/-- A combinator whose lane operation changes its own result `f x y` again does so on the engine that holds `x`. -/
theorem changesAgain_of_lane {f : Word → Word → Word} {mk : BitSet → Instr} (x y : Word)
    (hexec : ∀ m s, exec (mk m) s = .next (combine f true m s)) (hf : f (f x y) y ≠ f x y) : ChangesAgain mk := by
  refine ⟨oneWord x, [y], oneWord_built x, rfl, _, _, hexec _ _, hexec _ _, fun hw => hf ?_⟩
  have hword : [f (f x y) y] = [f x y] := hw
  simpa using hword

/-- A command that reads no mask operand, by the words it leaves after one execution and after two. -/
theorem changesAgain_of_words {i : Instr} {t u : State} (x : Word) (ht : exec i (oneWord x) = .next t)
    (hu : exec i t = .next u) (hw : u.w ≠ t.w) : ChangesAgain fun _ => i :=
  ⟨oneWord x, [0#32], oneWord_built x, rfl, t, u, ht, hu, hw⟩

theorem xor_changesAgain : ChangesAgain (.xor true) :=
  changesAgain_of_lane 0#32 1#32 (fun _ _ => rfl) (by decide)

theorem xornot_changesAgain : ChangesAgain (.xornot true) :=
  changesAgain_of_lane 0#32 0#32 (fun _ _ => rfl) (by decide)

theorem notxor_changesAgain : ChangesAgain (.notxor true) :=
  changesAgain_of_lane 0#32 0#32 (fun _ _ => rfl) (by decide)

theorem nand_changesAgain : ChangesAgain (.nand true) :=
  changesAgain_of_lane 0#32 1#32 (fun _ _ => rfl) (by decide)

theorem nor_changesAgain : ChangesAgain (.nor true) :=
  changesAgain_of_lane 0#32 0#32 (fun _ _ => rfl) (by decide)

/-- The second NOT restores the word 0. -/
theorem not_changesAgain : ChangesAgain fun _ => .not true :=
  changesAgain_of_words 0#32 rfl rfl (by decide)

/-- The second FLIP restores the word 0. -/
theorem flip_changesAgain : ChangesAgain fun _ => .flip true 3#32 :=
  changesAgain_of_words 0#32 rfl rfl (by decide)

/-- A count of 1 moves bit 0 to bit 1, and then to bit 2. -/
theorem shift_changesAgain : ChangesAgain fun _ => .shift true 1#32 := by
  refine changesAgain_of_words 1#32 rfl rfl fun hw => ?_
  have hbit : bitAt (shiftValue (shiftValue [1#32] 1) 1) 2 = bitAt (shiftValue [1#32] 1) 2 :=
    congrArg (bitAt · 2) hw
  have hcount : 2 < bitCount ([1#32] : BitSet).length := by decide
  rw [bitAt_shiftValue (by simpa using hcount), bitAt_shiftValue hcount,
    bitAt_shiftValue (by simp [bitCount])] at hbit
  exact absurd hbit (by decide)

/-- Settles O52: CLEAR and FILL do not read `W`'s bits, and the other seven idempotent commands absorb a repeated
operand (UNSET, ANDNOT and ORNOT complement it first); each of the other eight has a one-word engine on which it
changes `W` again. -/
theorem repeatedCommands : Obligations.RepeatedCommands := by
  constructor
  · intro s a m i _ hi
    refine (List.forall_iff_forall_mem (p := KeepsOnRepeat s)).mp ?_ i hi
    exact ⟨keepsOnRepeat_of_changeBit absorbs_or (fun _ => rfl) s,
      keepsOnRepeat_of_changeBit absorbs_and.complement (fun _ => rfl) s,
      clear_keepsOnRepeat s, fill_keepsOnRepeat s,
      keepsOnRepeat_of_combine absorbs_operand (fun _ => rfl) s,
      keepsOnRepeat_of_combine absorbs_and (fun _ => rfl) s, keepsOnRepeat_of_combine absorbs_or (fun _ => rfl) s,
      keepsOnRepeat_of_combine absorbs_and.complement (fun _ => rfl) s,
      keepsOnRepeat_of_combine absorbs_or.complement (fun _ => rfl) s⟩
  · refine (List.forall_iff_forall_mem (p := ChangesAgain)).mp ?_
    exact ⟨flip_changesAgain, xor_changesAgain, xornot_changesAgain, notxor_changesAgain, nand_changesAgain,
      nor_changesAgain, not_changesAgain, shift_changesAgain⟩

end Sys2Proof.Machine
end

section
/-! The decoder in one sentence: a command triple decodes to `i` exactly when it carries `i`, that is, when it agrees
with the encoding of `i` on `CMD` and on the bus that the format of `i` reads (spec/30_encoding.md R71-R75); every other
triple is rejected on its `CMD` alone (R77, R79). -/

namespace Sys2Proof

/-- The triple `c` on the ports of an engine of `n` words has the `CMD` of `i`, and the operand of `i` on the bus that
its format reads; the buses that the format does not read are free (R72). -/
structure Command.Carries (n : Nat) (c : Command) (i : Instr) : Prop where
  cmd : c.cmd = (encode n i).cmd
  arg : i.format = .fi ∨ i.format = .fc → c.arg = i.argBus
  mask : i.format = .fm → maskValue n c = i.maskBus n

/-! ### The encoder's buses and the grounds of R77 -/

theorem maskBus_of_format_ne_fm (n : Nat) {i : Instr} (h : i.format ≠ .fm) : i.maskBus n = zeros n := by
  cases i
  case nop | get | set | unset | flip | clear | fill | not | shift | isempty | hash => rfl
  all_goals exact absurd rfl h

/-- Where the format reads no `MASK`, the encoder drives `n` zero words, so one condition on the bus covers every
format (R74). -/
theorem wellFormed_iff_length_maskBus (n : Nat) (i : Instr) :
    i.wellFormed n = true ↔ (i.maskBus n).length = n := by
  cases i
  case nop | get | set | unset | flip | clear | fill | not | shift | isempty | hash =>
    simp [Instr.wellFormed, Instr.maskOperand, Instr.maskBus]
  all_goals exact beq_iff_eq

theorem illegalCmd_iff (cmd : BitVec 8) : illegalCmd cmd = true ↔
    rsvField cmd ≠ 0 ∨ opField cmd ∈ [0x12, 0x13, 0x15, 0x16, 0x17, 0x1E, 0x1F] ∨
      (opField cmd ∈ [0x00, 0x01, 0x18, 0x19, 0x1A, 0x1B, 0x1C, 0x1D] ∧ wbField cmd = true) := by
  simp only [illegalCmd, Bool.or_eq_true, Bool.and_eq_true, bne_iff_ne, List.contains_iff_mem, or_assoc]

theorem illegalCmd_encode (n : Nat) (i : Instr) : illegalCmd (encode n i).cmd = false := by
  cases i <;> simp [illegalCmd, encode, Instr.opcode, Instr.writeBack]

/-- A `CMD` with `RSV = 00` and the `OP` and `WB` of `i` is the `CMD` of `i` (R71). -/
theorem cmd_eq_encode {cmd : BitVec 8} {i : Instr} (n : Nat) (hrsv : rsvField cmd = 0)
    (hop : opField cmd = i.opcode.toNat) (hwb : wbField cmd = i.writeBack) : cmd = (encode n i).cmd := by
  rw [← cmdWord_fields cmd hrsv, hop, hwb, BitVec.ofNat_toNat, BitVec.setWidth_eq]
  rfl

/-! ### The decoder, both ways -/

theorem decode_of_carries {n : Nat} {c : Command} {i : Instr} (h : c.Carries n i) : decode n c = .ok i := by
  obtain ⟨hcmd, harg, hmask⟩ := h
  cases i
  case nop | clear | fill | not | isempty | hash =>
    simp [decode, hcmd, encode, Instr.opcode, Instr.writeBack, readerForm]
  case get | set | unset | flip =>
    simp [decode, hcmd, encode, Instr.opcode, Instr.writeBack, readerForm, harg (.inl rfl), Instr.argBus]
  case shift => simp [decode, hcmd, encode, Instr.opcode, Instr.writeBack, harg (.inr rfl), Instr.argBus]
  all_goals simp [decode, hcmd, encode, Instr.opcode, Instr.writeBack, readerForm, hmask rfl, Instr.maskBus]

/-- What a decoder's answer to `c` has to be: a command that `c` carries, or a rejection of an illegal `CMD`. -/
def Command.Answers (n : Nat) (c : Command) : Except DecodeError Instr → Prop
  | .ok i => c.Carries n i
  | .error _ => illegalCmd c.cmd = true

/-- A class-R opcode is accepted with `WB = 0` only (R75, R77). -/
theorem answers_readerForm {n : Nat} {c : Command} {i : Instr} {wb : Bool}
    (hillegal : wb = true → illegalCmd c.cmd = true) (hcarries : wb = false → c.Carries n i) :
    c.Answers n (readerForm wb i) := by
  cases wb with
  | true => exact hillegal rfl
  | false => exact hcarries rfl

theorem decode_answers (n : Nat) (c : Command) : c.Answers n (decode n c) := by
  unfold decode
  split
  case isTrue hrsv => exact (illegalCmd_iff _).mpr (.inl hrsv)
  case isFalse hrsv =>
    have hrsv : rsvField c.cmd = 0 := not_not.mp hrsv
    have hlt : opField c.cmd < 32 := BitVec.isLt _
    split <;> rename_i hop
    -- the class-R opcodes 0x00, 0x01 and 0x18-0x1D
    case h_1 | h_2 | h_20 | h_21 | h_22 | h_23 | h_24 | h_25 =>
      refine answers_readerForm (fun hwb => (illegalCmd_iff _).mpr (.inr (.inr ⟨by simp [hop], hwb⟩))) fun hwb => ?_
      exact ⟨cmd_eq_encode n hrsv hop hwb, by simp [Instr.format, Instr.argBus],
        by simp [Instr.format, Instr.maskBus]⟩
    -- no row of the opcode map: what is left below 32 is R77's second ground
    case h_26 =>
      refine (illegalCmd_iff _).mpr (.inr (.inl ?_))
      simp only [List.mem_cons, List.not_mem_nil, imp_false] at *
      omega
    all_goals
      exact ⟨cmd_eq_encode n hrsv hop rfl, by simp [Instr.format, Instr.argBus], by simp [Instr.format, Instr.maskBus]⟩

theorem decode_ok_iff (n : Nat) (c : Command) (i : Instr) : decode n c = .ok i ↔ c.Carries n i := by
  refine ⟨fun h => ?_, decode_of_carries⟩
  have := decode_answers n c
  rwa [h] at this

/-- R77, R79: whether a triple is rejected depends on its `CMD` alone. -/
theorem decode_error_iff (n : Nat) (c : Command) : (∃ e, decode n c = .error e) ↔ illegalCmd c.cmd = true := by
  have hanswers := decode_answers n c
  cases hd : decode n c with
  | error e =>
    rw [hd] at hanswers
    exact ⟨fun _ => hanswers, fun _ => ⟨e, rfl⟩⟩
  | ok i =>
    rw [hd] at hanswers
    simp [hanswers.cmd, illegalCmd_encode]

/-! ### The statements -/

/-- A well-formed command is carried by its own encoding: the bus has the `n` words that the engine reads. -/
theorem carries_encode {n : Nat} {i : Instr} (h : i.wellFormed n = true) : (encode n i).Carries n i where
  cmd := rfl
  arg _ := rfl
  mask _ := maskValue_of_length ((wellFormed_iff_length_maskBus n i).mp h) _ _

/-- Settles O1: an encoding carries its command, and the decoder answers what a triple carries. -/
theorem decodeEncodeRoundTrip : Obligations.DecodeEncodeRoundTrip :=
  fun _ _ h => decode_of_carries (carries_encode h)

theorem Command.Carries.wellFormed {n : Nat} {c : Command} {i : Instr} (h : c.Carries n i) :
    i.wellFormed n = true := by
  rw [wellFormed_iff_length_maskBus]
  by_cases hfm : i.format = .fm
  · rw [← h.mask hfm, length_maskValue]
  · rw [maskBus_of_format_ne_fm n hfm, length_zeros]

/-- Settles O2: the answer is a command the triple carries, which says the rest bus by bus. -/
theorem decodedCommandReencodes : Obligations.DecodedCommandReencodes := by
  intro n c i hd
  have hc := (decode_ok_iff n c i).mp hd
  refine ⟨hc.wellFormed, hc.cmd.symm, fun hformat => (hc.arg hformat).symm, fun hfm j hj => ?_⟩
  calc wordAt (i.maskBus n) j
      = wordAt (maskValue n c) j := by rw [hc.mask hfm]
    _ = wordAt c.mask j := wordAt_maskValue c hj

/-- The buses that the format of `i` does not read may hold anything (R72). -/
theorem Command.Carries.congr {n : Nat} {c d : Command} {i : Instr} (h : c.Carries n i) (hcmd : c.cmd = d.cmd)
    (harg : i.format = .fi ∨ i.format = .fc → c.arg = d.arg)
    (hmask : i.format = .fm → ∀ j < n, wordAt c.mask j = wordAt d.mask j) : d.Carries n i where
  cmd := hcmd ▸ h.cmd
  arg hformat := (harg hformat).symm.trans (h.arg hformat)
  mask hfm := (ofWords_congr (hmask hfm)).symm.trans (h.mask hfm)

end Sys2Proof

namespace Sys2Proof.Machine

theorem raise_illegalCommand_showsError (s : State) : ShowsError 2#2 s (raise .illegalCommand s) := by
  simp [ShowsError, Ends, ErrorKind.code]

theorem commandCycle_of_illegalCmd {c : Command} (s : State) (h : illegalCmd c.cmd = true) :
    commandCycle c s = .next (raise .illegalCommand s) := by
  obtain ⟨e, hd⟩ := (decode_error_iff s.w.length c).mpr h
  exact commandCycle_of_illegal hd

/-- Settles O3: the decoder rejects what `illegalCmd` names, whose grounds are R77's; the counts run over all `CMD`
values. -/
theorem illegalEncodingsAreExactlyThoseListed : Obligations.IllegalEncodingsAreExactlyThoseListed := by
  refine ⟨fun n c => ?_, fun s c hb h => ?_, fun n c => (decode_error_iff n c).symm, ?_⟩
  · rw [decode_error_iff, illegalCmd_iff]
  · exact ⟨_, (step_present hb c).trans (commandCycle_of_illegalCmd s h), raise_illegalCommand_showsError s⟩
  · refine ⟨?_, ?_, ?_, ?_, ?_⟩ <;> decide +kernel

/-- The cycle of a command reads of the triple no more than what it carries (R72); an illegal one is rejected on its
`CMD` (R79). -/
theorem commandCycle_congr {c d : Command} {s : State} (hcmd : c.cmd = d.cmd)
    (hbuses : ∀ i, decode s.w.length c = .ok i → (i.format = .fi ∨ i.format = .fc → c.arg = d.arg) ∧
      (i.format = .fm → ∀ j < s.w.length, wordAt c.mask j = wordAt d.mask j)) :
    commandCycle c s = commandCycle d s := by
  cases hd : decode s.w.length c with
  | error e =>
    have hillegal := (decode_error_iff _ c).mp ⟨e, hd⟩
    rw [commandCycle_of_illegalCmd s hillegal, commandCycle_of_illegalCmd s (hcmd ▸ hillegal)]
  | ok i =>
    obtain ⟨harg, hmask⟩ := hbuses i hd
    have hcarries := ((decode_ok_iff _ c i).mp hd).congr hcmd harg hmask
    rw [commandCycle_of_legal hd, commandCycle_of_legal (decode_of_carries hcarries)]

/-- Settles O6: the step of a presented command is its cycle, or the same refusal on a state no engine has. -/
theorem unreadBusesHaveNoEffect : Obligations.UnreadBusesHaveNoEffect := by
  intro s c d hcmd hbuses
  by_cases hb : s.Built
  · rw [step_present hb, step_present hb, commandCycle_congr hcmd hbuses]
  · have hpresent : ∀ c, step (s.present c) = .refused .unsupportedWordCount := fun _ => step_of_not_built hb
    rw [hpresent, hpresent]

end Sys2Proof.Machine
end

section
/-! Whatever the assembler makes of a line is well formed (spec/30_encoding.md R81, R82): a mask operand it accepts has
exactly `n` words, and each mnemonic puts the operands it was given, and no other mask, into its commands. -/

namespace Sys2Proof.Machine

/-! ### What holds of an answer of the assembler -/

/-- Whatever `r` accepts has the property `P`. -/
def Accepts {α : Type} (P : α → Prop) (r : Except AsmError α) : Prop := ∀ a, r = .ok a → P a

theorem accepts_error {α : Type} (P : α → Prop) (e : AsmError) : Accepts P (.error e) := fun _ h => nomatch h

theorem accepts_ok {α : Type} {P : α → Prop} {a : α} (h : P a) : Accepts P (.ok a) := by
  rintro _ ⟨⟩
  exact h

theorem accepts_true {α : Type} (r : Except AsmError α) : Accepts (fun _ => True) r := fun _ _ => trivial

theorem Accepts.bind {α β : Type} {P : α → Prop} {Q : β → Prop} {r : Except AsmError α} {f : α → Except AsmError β}
    (hr : Accepts P r) (hf : ∀ a, P a → Accepts Q (f a)) : Accepts Q (r.bind f) := by
  cases r with
  | error e => exact accepts_error Q e
  | ok a => exact hf a (hr a rfl)

theorem Accepts.map {α β : Type} {P : α → Prop} {Q : β → Prop} {r : Except AsmError α} {f : α → β}
    (hr : Accepts P r) (hf : ∀ a, P a → Q (f a)) : Accepts Q (r.map f) := by
  cases r with
  | error e => exact accepts_error Q e
  | ok a => exact accepts_ok (hf a (hr a rfl))

/-! ### Expansions -/

/-- Every command that the expansion lists is well formed; the host loop of `ITER` lists none. -/
def Expansion.WellFormed (n : Nat) : Expansion → Prop
  | .commands l => ∀ i ∈ l, i.wellFormed n = true
  | .iteration => True

theorem wellFormed_singleton (n : Nat) (i : Instr) : (Expansion.commands [i]).WellFormed n ↔ i.wellFormed n = true :=
  List.forall_mem_singleton

/-- The mask of a bulk-mask pseudo-instruction has `n` words (R82); the others have no mask. -/
def Pseudo.Fits (n : Nat) : Pseudo → Prop
  | .setm m | .unsetm m | .flipm m => m.length = n
  | _ => True

theorem expand_wellFormed {n : Nat} {p : Pseudo} {e : Expansion} (hfits : p.Fits n) (he : p.expand = some e) :
    e.WellFormed n := by
  cases p with
  | setm m | unsetm m | flipm m =>
    cases he
    exact (wellFormed_singleton n _).mpr (beq_iff_eq.mpr hfits)
  | wrbit a b => cases he; cases b <;> exact (wellFormed_singleton n _).mpr rfl
  | shr v d | none | all | read => cases he; exact (wellFormed_singleton n _).mpr rfl
  | shl v d =>
    simp only [Pseudo.expand] at he
    split at he <;> cases he
    exact (wellFormed_singleton n _).mpr rfl
  | setbits args | unsetbits args | flipbits args =>
    cases he
    exact List.forall_mem_map.mpr fun _ _ => rfl
  | iter => cases he; trivial

theorem expandPseudo_accepts {n : Nat} {p : Pseudo} (hfits : p.Fits n) :
    Accepts (Expansion.WellFormed n) (expandPseudo p) := by
  unfold expandPseudo
  split
  case h_1 => exact accepts_error _ _
  case h_2 e he => exact accepts_ok (expand_wellFormed hfits he)

/-! ### Forms -/

/-- Of every operand that fits an engine of `n` words, the form makes a command that does. -/
def AsmForm.Sound (n : Nat) : AsmForm → Prop
  | .plain i => i.wellFormed n = true
  | .indexed f => ∀ a, (f a).wellFormed n = true
  | .masked f => ∀ m, m.length = n → (f m).wellFormed n = true
  | .writePlain f => ∀ wb, (f wb).wellFormed n = true
  | .writeArg f => ∀ wb a, (f wb a).wellFormed n = true
  | .writeMasked f => ∀ wb m, m.length = n → (f wb m).wellFormed n = true
  | .pseudoPlain p => p.Fits n
  | .pseudoMasked f => ∀ m, m.length = n → (f m).Fits n
  | .pseudoShift f => ∀ v d, (f v d).Fits n
  | .pseudoBulk f => ∀ args, (f args).Fits n
  | .pseudoWriteBit => True

theorem mnemonicTable_sound (n : Nat) : ∀ row ∈ mnemonicTable, row.2.Sound n := by
  simp [mnemonicTable, AsmForm.Sound, Pseudo.Fits, Instr.wellFormed, Instr.maskOperand]

theorem lookupForm_mem {name : List Char} {table : List (List Char × AsmForm)} {f : AsmForm}
    (h : lookupForm name table = some f) : ∃ k, (k, f) ∈ table := by
  induction table with
  | nil => cases h
  | cons row rest ih =>
    obtain ⟨k, g⟩ := row
    unfold lookupForm at h
    split at h
    · cases h
      exact ⟨k, List.mem_cons_self⟩
    · obtain ⟨k', hmem⟩ := ih h
      exact ⟨k', List.mem_cons_of_mem _ hmem⟩

theorem noSuffix_accepts {P : Expansion → Prop} (v : Bool) {r : Except AsmError Expansion} (h : Accepts P r) :
    Accepts P (noSuffix v r) := by
  cases v with
  | true => exact accepts_error P _
  | false => exact h

theorem noOperand_accepts {P : Expansion → Prop} (l : List Char) {e : Expansion} (h : P e) :
    Accepts P (noOperand l e) := by
  unfold noOperand
  split
  · exact accepts_ok h
  · exact accepts_error P _

theorem needOperand_bind_accepts {α : Type} {P : α → Prop} (l : List Char) {f : List Char → Except AsmError α}
    (h : ∀ t, Accepts P (f t)) : Accepts P ((needOperand l).bind f) :=
  (accepts_true _).bind fun t _ => h t

theorem maskOperandText_accepts (n : Nat) (l : List Char) : Accepts (·.length = n) (maskOperandText n l) :=
  fun _ h => maskOperandText_length h

theorem assembleWriteBit_accepts (n : Nat) (l : List Char) :
    Accepts (Expansion.WellFormed n) (assembleWriteBit l) := by
  unfold assembleWriteBit
  split
  case h_2 a b _ => exact (accepts_true _).bind fun x _ => expandPseudo_accepts (p := .wrbit a x) trivial
  all_goals exact accepts_error _ _

/-- One case for each form: the operand it takes fits, and the form is sound. -/
theorem assembleForm_accepts {n : Nat} {f : AsmForm} (hsound : f.Sound n) (v : Bool) (l : List Char) :
    Accepts (Expansion.WellFormed n) (assembleForm n f v l) := by
  have hone : ∀ {i : Instr}, i.wellFormed n = true → (Expansion.commands [i]).WellFormed n :=
    (wellFormed_singleton n _).mpr
  cases f with
  | plain i => exact noSuffix_accepts v (noOperand_accepts l (hone hsound))
  | writePlain f => exact noOperand_accepts l (hone (hsound _))
  | indexed f =>
    exact noSuffix_accepts v (needOperand_bind_accepts l fun t => (accepts_true _).map fun a _ => hone (hsound a))
  | writeArg f => exact needOperand_bind_accepts l fun t => (accepts_true _).map fun a _ => hone (hsound _ a)
  | masked f =>
    exact noSuffix_accepts v (needOperand_bind_accepts l fun t =>
      (maskOperandText_accepts n t).map fun m hm => hone (hsound m hm))
  | writeMasked f =>
    exact needOperand_bind_accepts l fun t =>
      (maskOperandText_accepts n t).map fun m hm => hone (hsound _ m hm)
  | pseudoPlain p =>
    exact noSuffix_accepts v ((expandPseudo_accepts hsound).bind fun _ he => noOperand_accepts l he)
  | pseudoMasked f =>
    exact noSuffix_accepts v (needOperand_bind_accepts l fun t =>
      (maskOperandText_accepts n t).bind fun m hm => expandPseudo_accepts (hsound m hm))
  | pseudoShift f =>
    exact needOperand_bind_accepts l fun t => (accepts_true _).bind fun d _ => expandPseudo_accepts (hsound v d)
  | pseudoBulk f =>
    exact noSuffix_accepts v (needOperand_bind_accepts l fun t =>
      (accepts_true _).bind fun args _ => expandPseudo_accepts (hsound args))
  | pseudoWriteBit => exact noSuffix_accepts v (needOperand_bind_accepts l fun t => assembleWriteBit_accepts n t)

/-- A line stands for nothing, or for what its mnemonic's form makes of its operand. -/
theorem assembleLine_accepts (n : Nat) (line : List Char) :
    Accepts (fun r => ∀ e ∈ r, e.WellFormed n) (assembleLine n line) := by
  unfold assembleLine
  dsimp only
  split
  · exact accepts_ok (by simp)
  · split
    case h_1 => exact accepts_error _ _
    case h_2 name v _ =>
      split
      case h_1 => exact accepts_error _ _
      case h_2 f hlookup =>
        obtain ⟨k, hmem⟩ := lookupForm_mem hlookup
        exact (assembleForm_accepts (mnemonicTable_sound n _ hmem) v _).map fun e he => by simpa using he

/-- Settles O56: the commands of a line are those of the expansion it stands for. -/
theorem assembledCommandsAreWellFormed : Obligations.AssembledCommandsAreWellFormed :=
  fun n line _ h => assembleLine_accepts n line _ h _ rfl

end Sys2Proof.Machine
end

section
/-! SHIFT on a value of one word, by its bits: the scalar shifts (spec/44_shift.md R190, R197). -/

namespace Sys2Proof.Machine

theorem sint32_neg {d : Word} (h : d ≠ 0x80000000#32) : sint32 (-d) = -sint32 d :=
  BitVec.toInt_neg_of_ne_intMin h

theorem bitAt_singleton (x : Word) (i : Nat) : bitAt [x] i = x.getLsbD i := by
  rw [bitAt_cons]
  split
  · rfl
  · rw [BitVec.getLsbD_of_ge x i (by omega), bitAt_of_le (by simp [bitCount])]

/-- On one word R190's upper bound on the source index needs no test: a word has no bits above 31. -/
theorem bitAt_shiftValue_singleton (x : Word) (c : Int) {i : Nat} (hi : i < 32) :
    bitAt (shiftValue [x] c) i = (decide (0 ≤ (i : Int) - c) && x.getLsbD ((i : Int) - c).toNat) := by
  rw [bitAt_shiftValue (v := [x]) hi, bitAt_singleton, Bool.decide_and, Bool.and_assoc]
  congr 1
  by_cases hlt : (i : Int) - c < 32
  · simp [bitCount, hlt]
  · rw [BitVec.getLsbD_of_ge x _ (by omega), Bool.and_false]

/-- A shift of one word is the word that has its bits. -/
theorem shiftValue_singleton_eq {x y : Word} {c : Int}
    (h : ∀ i : Nat, i < 32 → (decide (0 ≤ (i : Int) - c) && x.getLsbD ((i : Int) - c).toNat) = y.getLsbD i) :
    shiftValue [x] c = [y] := by
  refine value_ext_bits (length_shiftValue [x] c) fun i hi => ?_
  rw [length_shiftValue] at hi
  rw [bitAt_shiftValue_singleton x c hi, bitAt_singleton, h i hi]

theorem shiftValue_singleton_left (x : Word) (d : Nat) : shiftValue [x] (d : Int) = [x <<< d] := by
  refine shiftValue_singleton_eq fun i hi => ?_
  have hsub : ((i : Int) - d).toNat = i - d := by omega
  have hge : (0 ≤ (i : Int) - d) = ¬ i < d := propext (by omega)
  rw [hsub, BitVec.getLsbD_shiftLeft, decide_eq_true hi, Bool.true_and]
  simp only [hge, decide_not]

theorem shiftValue_singleton_right (x : Word) (d : Nat) : shiftValue [x] (-(d : Int)) = [x >>> d] := by
  refine shiftValue_singleton_eq fun i _ => ?_
  have hsub : ((i : Int) - -d).toNat = d + i := by omega
  have hpos : 0 ≤ (i : Int) - -d := by omega
  rw [hsub, decide_eq_true hpos, Bool.true_and, BitVec.getLsbD_ushiftRight]

/-- Settles O48: the expansions are R82's rows, with the one refusal where `-d` overflows, and the scalar shifts hold of
every distance. -/
theorem shiftOperatorsAndOneWord : Obligations.ShiftOperatorsAndOneWord := by
  refine ⟨fun _ _ => rfl, fun v d hd => ⟨if_neg hd, sint32_neg hd⟩, fun _ => rfl, fun x d _ _ => ?_⟩
  exact ⟨shiftValue_singleton_left x d, shiftValue_singleton_right x d⟩

end Sys2Proof.Machine
end

section
/-! The written-out examples of spec/30_encoding.md R83 and of the opcode map R75, and the rows of R82 and R130. -/

namespace Sys2Proof

/-- Settles O4: the assembler and the encoder evaluate to the words that the spec writes. -/
theorem encodingExamplesOfTheSpec : Obligations.EncodingExamplesOfTheSpec :=
  ⟨rfl, rfl, rfl, rfl, rfl, rfl, rfl, rfl, rfl, rfl, rfl, rfl, rfl, rfl, rfl, rfl⟩

/-- Settles O5: a legal word carries its command, and each illegal one is rejected on the first ground of R77 that it
meets. -/
theorem writtenOutWordsDecode : Obligations.WrittenOutWordsDecode := by
  refine ⟨?_, ?_, ?_, ?_, ?_, ?_, ?_, ?_, ?_, ?_, ?_, rfl, rfl, rfl⟩
  all_goals exact decode_of_carries ⟨rfl, by simp [Instr.format, Instr.argBus], by decide⟩

/-- Settles O55: `SETBITS`, `UNSETBITS` and `FLIPBITS` keep the order of their list. -/
theorem pseudoInstructionsExpand : Obligations.PseudoInstructionsExpand :=
  ⟨fun _ => ⟨rfl, rfl⟩, rfl, rfl, rfl, rfl, fun _ => ⟨rfl, rfl, rfl⟩⟩

end Sys2Proof
end

section
/-! The encoding rows of the opcode map (spec/30_encoding.md R71, R75-R77), once for each class: a `CMD` value with
its operand on the bus is carried by the triple, so it decodes to the command. -/

namespace Sys2Proof.Machine

theorem encode_cmd_of_fields {n : Nat} {i : Instr} {op : BitVec 5} {wb : Bool} (hop : i.opcode = op)
    (hwb : i.writeBack = wb) : (encode n i).cmd = cmdWord wb op :=
  hop ▸ hwb ▸ rfl

/-- The row of a class-W command with operation code `op`: it has both forms, and its operand is on the bus that its
format reads. -/
theorem encodedWriter_of_fields (op : BitVec 5) {i : Nat → Bool → Command → Instr}
    (hop : ∀ n wb c, (i n wb c).opcode = op) (hwb : ∀ n wb c, (i n wb c).writeBack = wb)
    (harg : ∀ n wb c, (i n wb c).format = .fi ∨ (i n wb c).format = .fc → c.arg = (i n wb c).argBus)
    (hmask : ∀ n wb c, (i n wb c).format = .fm → maskValue n c = (i n wb c).maskBus n) :
    EncodedWriter (cmdWord false op) (cmdWord true op) i := by
  intro n c
  have hdecode (wb : Bool) (hcmd : c.cmd = cmdWord wb op) : decode n c = .ok (i n wb c) :=
    decode_of_carries
      ⟨hcmd.trans (encode_cmd_of_fields (hop n wb c) (hwb n wb c)).symm, harg n wb c, hmask n wb c⟩
  exact ⟨hdecode false, hdecode true⟩

/-- R77's third ground: the `OP` of a class-R command with `WB = 1`. -/
theorem decode_of_writeBack_reader {n : Nat} {c : Command} {i : Instr} (hclass : i.isWriting = false)
    (hcmd : c.cmd = cmdWord true i.opcode) : decode n c = .error .writeBackOnReader := by
  cases i
  case nop | get | eq | isempty | hasall | hasany | hasnone | hash =>
    simp [decode, hcmd, Instr.opcode, readerForm]
  all_goals exact nomatch hclass

theorem writeBack_of_reader {i : Instr} (hclass : i.isWriting = false) : i.writeBack = false := by
  cases i
  case nop | get | eq | isempty | hasall | hasany | hasnone | hash => rfl
  all_goals exact nomatch hclass

/-- The row of a class-R command with operation code `op`: its one `CMD` value, and the one that `WB = 1` makes
illegal. -/
theorem encodedReader_of_fields (op : BitVec 5) {i : Nat → Command → Instr} (hop : ∀ n c, (i n c).opcode = op)
    (hclass : ∀ n c, (i n c).isWriting = false)
    (harg : ∀ n c, (i n c).format = .fi ∨ (i n c).format = .fc → c.arg = (i n c).argBus)
    (hmask : ∀ n c, (i n c).format = .fm → maskValue n c = (i n c).maskBus n) :
    EncodedReader (cmdWord false op) (cmdWord true op) i := by
  intro n c
  have hcmd := encode_cmd_of_fields (n := n) (hop n c) (writeBack_of_reader (hclass n c))
  exact ⟨fun h => decode_of_carries ⟨h.trans hcmd.symm, harg n c, hmask n c⟩,
    fun h => decode_of_writeBack_reader (hclass n c) (h.trans (by rw [hop n c]))⟩

end Sys2Proof.Machine
end

section
/-! NOP, CLEAR, FILL and LOAD (spec/40_construct.md R100-R103). -/

namespace Sys2Proof.Machine

/-! ### NOP -/

theorem encodedReader_nop : EncodedReader 0x00#8 0x20#8 (fun _ _ => .nop) :=
  encodedReader_of_fields 0x00#5 (fun _ _ => rfl) (fun _ _ => rfl) (by simp [Instr.format]) (by simp [Instr.format])

/-- A cycle at defined levels that the host drives next, on an engine that can be built. -/
theorem step_of_driven {s : State} (hb : s.Built) (p : PortInputs) :
    step { s with pending := .driven p :: s.pending } = drivenCycle p s := by
  have hb' : State.Built { s with pending := .driven p :: s.pending } := hb
  rw [step_of_built hb']
  rfl

/-- Both cycles pass with `idle`; on a state no engine has, both are refused (log entry 7). -/
theorem step_nop_eq_step_idle (s : State) {c : Command} (d : Command) (hcmd : c.cmd = 0x00#8) :
    step (s.present c) =
      step { s with pending := .driven { rst := false, cmdValid := false, command := d } :: s.pending } := by
  by_cases hb : s.Built
  · have hd : decode s.w.length c = .ok .nop := (encodedReader_nop s.w.length c).1 hcmd
    rw [step_present hb, commandCycle_of_legal hd]
    exact ((step_of_driven hb _).trans (drivenCycle_of_idle rfl rfl s)).symm
  · have hrefused (l : List HostCycle) : step { s with pending := l } = .refused .unsupportedWordCount :=
      step_of_not_built hb
    exact (hrefused _).trans (hrefused _).symm

/-- Settles O9: NOP is `idle`, and so is the cycle it is compared with; `0x20` is illegal on R77's third ground. -/
theorem nopIsAnIdleCycle : Obligations.NopIsAnIdleCycle := by
  refine ⟨encodedReader_nop, fun s => ⟨idle s, rfl, idle_showsNothing s⟩,
    fun s _ d hcmd => step_nop_eq_step_idle s d hcmd, fun s c hb hcmd => ?_, rfl⟩
  have hillegal : illegalCmd c.cmd = true := hcmd ▸ by decide
  exact ⟨_, (step_present hb c).trans (commandCycle_of_illegalCmd s hillegal), raise_illegalCommand_showsError s⟩

/-! ### CLEAR and FILL -/

/-- A result of `N` words, presented as R80 says, is shown on `RES_VEC` alone. -/
theorem presentVec_showsVec (wb : Bool) {v : BitSet} {s : State} (h : v.length = s.w.length) :
    ShowsVec wb v s (presentVec wb v s) :=
  ⟨h, by simp [Ends]⟩

theorem encodedWriter_clear : EncodedWriter 0x05#8 0x25#8 (fun _ wb _ => .clear wb) :=
  encodedWriter_of_fields 0x05#5 (fun _ _ _ => rfl) (fun _ _ _ => rfl) (by simp [Instr.format]) (by simp [Instr.format])

theorem encodedWriter_fill : EncodedWriter 0x06#8 0x26#8 (fun _ wb _ => .fill wb) :=
  encodedWriter_of_fields 0x06#5 (fun _ _ _ => rfl) (fun _ _ _ => rfl) (by simp [Instr.format]) (by simp [Instr.format])

theorem lift1_not_zeros (n : Nat) : lift1 (fun x => ~~~x) (zeros n) = ones n := by
  refine value_ext (by simp) fun j hj => ?_
  have hj' : j < n := by simpa using hj
  rw [wordAt_lift1 (by simpa using hj'), wordAt_zeros, ones, wordAt_ofWords_of_lt _ hj']

/-- Settles O26: both present a constant of `N` words, and NOT turns the one into the other. -/
theorem clearAndFillConstructTheConstants : Obligations.ClearAndFillConstructTheConstants := by
  refine ⟨encodedWriter_clear, encodedWriter_fill, fun s => ⟨fun wb => ?_, ?_⟩⟩
  · rw [← zeros_eq_replicate, ← ones_eq_replicate]
    exact ⟨⟨_, rfl, presentVec_showsVec wb (length_zeros _)⟩,
      ⟨_, rfl, presentVec_showsVec wb (length_ones _)⟩⟩
  · exact ⟨_, _, _, rfl, rfl, rfl, lift1_not_zeros s.w.length⟩

/-! ### LOAD -/

theorem encodedWriter_load : EncodedWriter 0x07#8 0x27#8 (fun n wb c => .load wb (maskValue n c)) :=
  encodedWriter_of_fields 0x07#5 (fun _ _ _ => rfl) (fun _ _ _ => rfl) (by simp [Instr.format]) fun _ _ _ _ => rfl

/-- LOAD's lane reads the mask operand only (R103). -/
theorem lift2_operand {v m : BitSet} (h : m.length = v.length) : lift2 (fun _ y => y) v m = m :=
  ofWords_wordAt h

theorem exec_load {m : BitSet} {s : State} (wb : Bool) (h : m.length = s.w.length) :
    exec (.load wb m) s = .next (presentVec wb m s) := by
  calc exec (.load wb m) s
      = .next (presentVec wb (lift2 (fun _ y => y) s.w m) s) := rfl
    _ = .next (presentVec wb m s) := by rw [lift2_operand h]

/-! ### Putting a value into `W` whatever `W` was

A command that does so has one result from every `W`. Values of `W` with all words alike are enough to look at: from two
of them a command other than LOAD has two results, or from one of them its result is `ZERO` or `ONES`. -/

/-- On every engine of `n` words, executing `i` leaves `v` in `W`. -/
def Forces (n : Nat) (v : BitSet) (i : Instr) : Prop :=
  ∀ s : State, s.w.length = n → ∃ t, exec i s = .next t ∧ t.w = v

/-- The engine of `n` words right after reset but with every word of `W` equal to `x`. -/
def uniform (n : Nat) (x : Word) : State := { State.resetOf n with w := ofWords n fun _ => x }

@[simp] theorem uniform_w (n : Nat) (x : Word) : (uniform n x).w = ofWords n fun _ => x := rfl

/-- The result from `W = x…x` is the value that is forced. -/
theorem Forces.eq_uniform {n : Nat} {v : BitSet} {i : Instr} {t : State} (h : Forces n v i) (x : Word)
    (ht : exec i (uniform n x) = .next t) : v = t.w := by
  obtain ⟨t', ht', hv⟩ := h (uniform n x) (by simp)
  obtain rfl : t' = t := by simpa [ht'] using ht
  exact hv.symm

/-- From `W = ZERO` only a mutator leaves anything else (R55). -/
theorem Forces.isMutator {n : Nat} {v : BitSet} {i : Instr} (h : Forces n v i) (hz : v ≠ zeros n) :
    i.isWriting = true ∧ i.writeBack = true := by
  obtain ⟨t, ht, rfl⟩ := h (State.resetOf n) (by simp)
  obtain ⟨hwriting, hback, -⟩ := exec_changes_w ht hz
  exact ⟨hwriting, hback⟩

/-- A combinator whose lane takes `x` to `y` whatever the mask is forces the constant `y` only. -/
theorem Forces.eq_of_lane {n : Nat} {v m : BitSet} {i : Instr} {f : Word → Word → Word} (h : Forces n v i)
    (x y : Word) (hexec : ∀ s, exec i s = .next (combine f true m s)) (hf : ∀ b, f x b = y) :
    v = ofWords n fun _ => y := by
  calc v
      = lift2 f (ofWords n fun _ => x) m := h.eq_uniform x (hexec _)
    _ = ofWords n fun _ => y := value_ext (by simp) fun j hj => by
      have hj' : j < n := by simpa using hj
      rw [wordAt_lift2 (by simpa using hj'), wordAt_ofWords_of_lt _ hj', wordAt_ofWords_of_lt _ hj', hf]

@[simp] theorem length_changeBit (f : Word → Word → Word) (arg : Word) (s : State) :
    (changeBit f true arg s).w.length = s.w.length := by
  rw [changeBit_w, apply_ite List.length, length_updateSelected, ite_self]

/-- What SET, UNSET and FLIP leave in each word: only the one a valid index selects goes through the word operation. -/
theorem wordAt_changeBit (f : Word → Word → Word) (arg : Word) {s : State} {j : Nat} (hj : j < s.w.length) :
    wordAt (changeBit f true arg s).w j =
      if inBounds s.w.length (sint32 arg) = true ∧ j = (locate (sint32 arg).toNat).wordIndex then
        f (wordAt s.w j) (locate (sint32 arg).toNat).mask else wordAt s.w j := by
  rw [changeBit_w, apply_ite (wordAt · j), wordAt_updateSelected hj, ite_and]

/-- A single-bit command whose word operation keeps `x` forces the constant `x` only, be its index valid or not. -/
theorem Forces.eq_of_changeBit {n : Nat} {v : BitSet} {i : Instr} {f : Word → Word → Word} {arg : Word}
    (h : Forces n v i) (x : Word) (hexec : ∀ s, exec i s = .next (changeBit f true arg s))
    (hf : ∀ mask, f x mask = x) : v = ofWords n fun _ => x := by
  rw [h.eq_uniform x (hexec _)]
  refine (value_ext (by simp) fun j hj => ?_).symm
  have hword : wordAt (uniform n x).w j = x := wordAt_ofWords_of_lt _ (by simpa using hj)
  rw [wordAt_changeBit f arg hj, hword, hf, ite_self]
  exact hword

/-- A command that toggles word 0 of `W` by a word that `W` has no part in leaves two results from two values of it. -/
theorem not_forces_of_toggles {n : Nat} {v : BitSet} {i : Instr} {op : State → State} (y : Word) (hn : 1 ≤ n)
    (hexec : ∀ s, exec i s = .next (op s))
    (htoggle : ∀ s : State, s.w.length = n → wordAt (op s).w 0 = wordAt s.w 0 ^^^ y) : ¬ Forces n v i := by
  intro h
  have hword (x : Word) : wordAt v 0 = x ^^^ y := by
    rw [h.eq_uniform x (hexec _), htoggle _ (by simp), uniform_w, wordAt_ofWords_of_lt _ hn]
  have hsame : (0#32 : Word) = 1#32 := BitVec.xor_left_inj y |>.mp ((hword 0#32).symm.trans (hword 1#32))
  exact absurd hsame (by decide)

/-- XOR, XORNOT and NOTXOR toggle word 0 by a word that the mask decides. -/
theorem not_forces_of_xor_lane {n : Nat} {v m : BitSet} {i : Instr} {f : Word → Word → Word} (g : Word → Word)
    (hn : 1 ≤ n) (hexec : ∀ s, exec i s = .next (combine f true m s)) (hf : ∀ x b, f x b = x ^^^ g b) :
    ¬ Forces n v i := by
  refine not_forces_of_toggles (g (wordAt m 0)) hn hexec fun s hs => ?_
  have h0 : 0 < s.w.length := by omega
  exact (wordAt_lift2 h0).trans (hf _ _)

/-- FLIP toggles word 0 by the decoder's mask when its index is valid and selects that word, and by 0 otherwise. -/
theorem not_forces_flip {n : Nat} {v : BitSet} (hn : 1 ≤ n) (arg : Word) : ¬ Forces n v (.flip true arg) := by
  refine not_forces_of_toggles (if inBounds n (sint32 arg) = true ∧ 0 = (locate (sint32 arg).toNat).wordIndex then
    (locate (sint32 arg).toNat).mask else 0#32) hn (fun _ => rfl) fun s hs => ?_
  rw [wordAt_changeBit _ arg (by omega), hs]
  split
  · rfl
  · exact BitVec.xor_zero.symm

theorem shiftValue_zeros (n : Nat) (c : Int) : shiftValue (zeros n) c = zeros n := by
  refine value_ext_bits (by simp) fun i hi => ?_
  rw [length_shiftValue] at hi
  simp [bitAt_shiftValue hi]

theorem ones_word_or (b : Word) : ~~~0#32 ||| b = ~~~0#32 := BitVec.allOnes_or

/-- R103's only way: each command but LOAD writes nothing, takes `ZERO` or `ONES` to one of the two, or toggles. -/
theorem Forces.eq_load {n : Nat} {v : BitSet} {i : Instr} (h : Forces n v i) (hn : 1 ≤ n)
    (hwf : i.wellFormed n = true) (hz : v ≠ zeros n) (ho : v ≠ ones n) : i = .load true v := by
  obtain ⟨hwriting, hback⟩ := h.isMutator hz
  cases i
  case nop | get | eq | isempty | hasall | hasany | hasnone | hash => exact nomatch hwriting
  all_goals obtain rfl : _ = true := hback
  case clear => exact absurd (h.eq_uniform 0#32 rfl) (by simpa using hz)
  case fill => exact absurd (h.eq_uniform 0#32 rfl) (by simpa using ho)
  case not => exact absurd ((h.eq_uniform 0#32 rfl).trans (lift1_not_zeros n)) ho
  case shift arg => exact absurd ((h.eq_uniform 0#32 rfl).trans (shiftValue_zeros n (sint32 arg))) hz
  case set => exact absurd (h.eq_of_changeBit (~~~0#32) (fun _ => rfl) ones_word_or) ho
  case unset => exact absurd (h.eq_of_changeBit 0#32 (fun _ => rfl) (by simp)) hz
  case flip arg => exact absurd h (not_forces_flip hn arg)
  case and | andnot => exact absurd (h.eq_of_lane 0#32 0#32 (fun _ => rfl) (by simp)) hz
  case nor =>
    exact absurd (h.eq_of_lane (~~~0#32) 0#32 (fun _ => rfl) fun b => congrArg (~~~·) (ones_word_or b)) hz
  case nand => exact absurd (h.eq_of_lane 0#32 (~~~0#32) (fun _ => rfl) (by simp)) ho
  case or | ornot => exact absurd (h.eq_of_lane (~~~0#32) (~~~0#32) (fun _ => rfl) fun _ => ones_word_or _) ho
  case xor => exact absurd h (not_forces_of_xor_lane id hn (fun _ => rfl) fun _ _ => rfl)
  case xornot => exact absurd h (not_forces_of_xor_lane (~~~·) hn (fun _ => rfl) fun _ _ => rfl)
  case notxor => exact absurd h (not_forces_of_xor_lane (~~~·) hn (fun _ => rfl) fun _ _ => BitVec.not_xor_right)
  case load m =>
    have hm : m.length = n := by simpa [Instr.wellFormed, Instr.maskOperand] using hwf
    have hv : v = m := h.eq_uniform 0#32 (exec_load true (by simpa using hm))
    rw [hv]

theorem forces_load {n : Nat} {v : BitSet} (hv : v.length = n) : Forces n v (.load true v) :=
  fun _ hs => ⟨_, exec_load true (hv.trans hs.symm), rfl⟩

/-- Settles O27: LOAD presents its operand, and `Forces.eq_load` says that nothing else forces a value that is no
constant. -/
theorem loadAssignsTheMask : Obligations.LoadAssignsTheMask := by
  refine ⟨encodedWriter_load, fun s wb m hm => ⟨_, exec_load wb hm, presentVec_showsVec wb hm, fun hw => ?_⟩,
    fun n v i hn hv hz ho hwf => ⟨fun h => Forces.eq_load h hn hwf hz ho, fun h => h ▸ forces_load hv⟩⟩
  rw [presentVec_w, hw, ite_self]

end Sys2Proof.Machine
end

section
/-! The two forms of a class-W command (spec/30_encoding.md R71, R76; spec/40_construct.md R104): what `WB` selects is
the write of `W` alone. -/

namespace Sys2Proof

/-- The command with `WB` cleared: the value form of a class-W command; a class-R command has no other form (R76). -/
def Instr.valueForm : Instr → Instr
  | .set _ a => .set false a
  | .unset _ a => .unset false a
  | .flip _ a => .flip false a
  | .clear _ => .clear false
  | .fill _ => .fill false
  | .load _ m => .load false m
  | .and _ m => .and false m
  | .andnot _ m => .andnot false m
  | .nand _ m => .nand false m
  | .or _ m => .or false m
  | .ornot _ m => .ornot false m
  | .nor _ m => .nor false m
  | .xor _ m => .xor false m
  | .xornot _ m => .xornot false m
  | .notxor _ m => .notxor false m
  | .not _ => .not false
  | .shift _ a => .shift false a
  | i => i

@[simp] theorem writeBack_valueForm (i : Instr) : i.valueForm.writeBack = false := by cases i <;> rfl

@[simp] theorem opcode_valueForm (i : Instr) : i.valueForm.opcode = i.opcode := by cases i <;> rfl

@[simp] theorem format_valueForm (i : Instr) : i.valueForm.format = i.format := by cases i <;> rfl

@[simp] theorem argBus_valueForm (i : Instr) : i.valueForm.argBus = i.argBus := by cases i <;> rfl

@[simp] theorem maskBus_valueForm (n : Nat) (i : Instr) : i.valueForm.maskBus n = i.maskBus n := by cases i <;> rfl

/-- `0xDF` is every bit of `CMD` but `WB` (R71). -/
theorem cmdWord_clear_writeBack (wb : Bool) (op : BitVec 5) : cmdWord wb op &&& 0xDF#8 = cmdWord false op := by
  revert op
  cases wb <;> decide

/-- Clearing `WB` in a triple that carries a command leaves one that carries its value form. -/
theorem Command.Carries.valueForm {n : Nat} {d : Command} {i : Instr} (h : d.Carries n i) :
    ({ d with cmd := d.cmd &&& 0xDF#8 } : Command).Carries n i.valueForm where
  cmd := by simp [h.cmd, encode, cmdWord_clear_writeBack]
  arg hformat := by simpa using h.arg (by simpa using hformat)
  mask hfm := (h.mask (by simpa using hfm)).trans (maskBus_valueForm n i).symm

end Sys2Proof

namespace Sys2Proof.Machine

theorem exec_pending {i : Instr} {s t : State} (he : exec i s = .next t) : t.pending = s.pending := by
  obtain ⟨t', he', hpending, -⟩ := exec_cases i s
  obtain rfl : t' = t := by simpa [he'] using he
  exact hpending

/-- What the mutator form of a class-W command leaves in `W`: what `RES_VEC` shows, unless it raised an error. -/
theorem exec_mutator_w {i : Instr} {s t : State} (hwriting : i.isWriting = true) (hback : i.writeBack = true)
    (he : exec i s = .next t) : t.w = if t.out.err then s.w else t.out.resVec := by
  obtain ⟨t', he', -, -, -, -, rfl | ⟨herr, hw⟩⟩ := exec_cases i s
  · obtain rfl : _ = t := by simpa [he'] using he
    rfl
  · obtain rfl : t' = t := by simpa [he'] using he
    simpa [herr, hwriting, hback] using hw

theorem exec_valueForm_w {i : Instr} {s t : State} (he : exec i.valueForm s = .next t) : t.w = s.w := by
  by_contra hne
  obtain ⟨-, hback, -⟩ := exec_changes_w he hne
  simp at hback

theorem changeBit_out_congr (f : Word → Word → Word) (wb wb' : Bool) (arg : Word) (s : State) :
    (changeBit f wb arg s).out = (changeBit f wb' arg s).out := by
  unfold changeBit withIndex
  split <;> rfl

/-- `WB` has no part in the outputs: `RES_VEC` shows the result in both forms (R80), and the bounds check of a
single-bit command comes before either (R121). -/
theorem exec_valueForm_out (i : Instr) (s : State) :
    ∃ t u, exec i.valueForm s = .next t ∧ exec i s = .next u ∧ t.out = u.out := by
  cases i <;> refine ⟨_, _, rfl, rfl, ?_⟩
  case set | unset | flip => exact changeBit_out_congr ..
  all_goals rfl

/-- Settles O51: the two triples decode to the two forms of one command, and `exec` shows the same of both. -/
theorem valueFormShowsWhatMutatorWrites : Obligations.ValueFormShowsWhatMutatorWrites := by
  intro s c d i hb hd hwriting hback harg hmask hcmd
  have hc : c = { d with cmd := d.cmd &&& 0xDF#8 } := by
    cases c
    cases hcmd; cases harg; cases hmask
    rfl
  have hdc : decode s.w.length c = .ok i.valueForm :=
    hc ▸ decode_of_carries ((decode_ok_iff _ d i).mp hd).valueForm
  obtain ⟨t, u, ht, hu, hout⟩ := exec_valueForm_out i s
  exact ⟨t, u, (step_present hb c).trans ((commandCycle_of_legal hdc).trans ht),
    (step_present hb d).trans ((commandCycle_of_legal hd).trans hu), exec_valueForm_w ht, hout, exec_pending ht,
    exec_pending hu, exec_mutator_w hwriting hback hu⟩

end Sys2Proof.Machine
end

section
/-! The single-bit commands (spec/41_bit_access.md R120-R126): each is its bounds check and then one bit, of `W` on
`RES_BIT` or of the result on `RES_VEC`. -/

namespace Sys2Proof.Machine

/-! ### The bounds check -/

theorem withIndex_of_valid {arg : Word} {s : State} (h : ValidIndex s.w.length arg) (result : Location → State) :
    withIndex arg s result = result (locate (sint32 arg).toNat) :=
  if_pos ((inBounds_iff _ _).mpr h)

theorem withIndex_of_invalid {arg : Word} {s : State} (h : ¬ ValidIndex s.w.length arg)
    (result : Location → State) : withIndex arg s result = raise .indexOutOfRange s :=
  if_neg (mt (inBounds_iff _ _).mp h)

theorem raise_indexOutOfRange_showsError (s : State) : ShowsError 1#2 s (raise .indexOutOfRange s) := by
  simp [ShowsError, Ends, ErrorKind.code]

/-- The four single-bit commands are one bounds check each, and none of their results is an error. -/
theorem exec_eq_withIndex {i : Instr} {arg : Word}
    (hi : i = .get arg ∨ ∃ wb, i = .set wb arg ∨ i = .unset wb arg ∨ i = .flip wb arg) (s : State) :
    ∃ result, exec i s = .next (withIndex arg s result) ∧ ∀ l, (result l).out.err = false := by
  obtain rfl | ⟨wb, rfl | rfl | rfl⟩ := hi <;> exact ⟨_, rfl, fun _ => rfl⟩

/-- Settles O32: the two failing ranges are the 32-bit indices that are not valid. -/
theorem boundsCheckComesFirst : Obligations.BoundsCheckComesFirst := by
  intro s arg i hi
  obtain ⟨result, hexec, herr⟩ := exec_eq_withIndex hi s
  refine ⟨_, hexec, fun hfails => ?_, fun hvalid => ?_⟩
  · have hinvalid : ¬ ValidIndex s.w.length arg := by
      rintro ⟨hlow, hhigh⟩
      omega
    rw [withIndex_of_invalid hinvalid]
    exact raise_indexOutOfRange_showsError s
  · rw [withIndex_of_valid hvalid]
    exact herr _

/-! ### GET -/

theorem encodedReader_get : EncodedReader 0x01#8 0x21#8 (fun _ c => .get c.arg) :=
  encodedReader_of_fields 0x01#5 (fun _ _ => rfl) (fun _ _ => rfl) (fun _ _ _ => rfl) (by simp [Instr.format])

/-- The decoder's mask is one-hot, so GET's test of the selected word is the indexed bit (R120, R122). -/
theorem bitTest_locate (v : BitSet) (i : Nat) :
    bitTest (wordAt v (locate i).wordIndex) (locate i).mask = bitAt v i := by
  have hword : (wordAt v (locate i).wordIndex).getLsbD (i % 32) = bitAt v i := rfl
  rw [Bool.eq_iff_iff, bitTest, beq_iff_eq, ← hword]
  constructor
  · intro hmask
    have hbit := congrArg (·.getLsbD (i % 32)) hmask
    simpa [getLsbD_locate_mask] using hbit
  · intro hbit
    refine BitVec.eq_of_getLsbD_eq fun b _ => ?_
    rw [BitVec.getLsbD_and, getLsbD_locate_mask]
    by_cases hb : b = i % 32
    · subst hb
      simpa using hbit
    · simp [hb]

theorem exec_get_of_valid {arg : Word} {s : State} (h : ValidIndex s.w.length arg) :
    exec (.get arg) s = .next (presentBit (bitAt s.w (sint32 arg).toNat) s) := by
  rw [← bitTest_locate]
  exact congrArg Host.Outcome.next (withIndex_of_valid h _)

theorem exec_get_of_invalid {arg : Word} {s : State} (h : ¬ ValidIndex s.w.length arg) :
    exec (.get arg) s = .next (raise .indexOutOfRange s) :=
  congrArg Host.Outcome.next (withIndex_of_invalid h _)

theorem presentBit_showsBit (b : Bool) (s : State) : ShowsBit b s (presentBit b s) := by
  simp [ShowsBit, Ends]

/-- Settles O28: the bounds check, and GET's test of the selected word. -/
theorem getReadsTheIndexedBit : Obligations.GetReadsTheIndexedBit :=
  ⟨encodedReader_get, fun s _ =>
    ⟨fun h => ⟨_, exec_get_of_valid h, presentBit_showsBit _ s⟩,
      fun h => ⟨_, exec_get_of_invalid h, raise_indexOutOfRange_showsError s⟩⟩⟩

/-! ### SET, UNSET and FLIP -/

/-- `v` with bit `i` made `g` of what it was, and every other bit as it was. -/
def changeBitAt (g : Bool → Bool) (v : BitSet) (i : Int) : BitSet :=
  ofBits v.length fun k => if (k : Int) = i then g (bitAt v k) else bitAt v k

@[simp] theorem length_changeBitAt (g : Bool → Bool) (v : BitSet) (i : Int) :
    (changeBitAt g v i).length = v.length :=
  length_ofBits _ _

theorem bitAt_changeBitAt (g : Bool → Bool) {v : BitSet} (i : Int) {k : Nat} (hk : k < 32 * v.length) :
    bitAt (changeBitAt g v i) k = if (k : Int) = i then g (bitAt v k) else bitAt v k :=
  bitAt_ofBits _ hk

/-- The word operation `f` makes the bits of its operand `g` of what they were, and keeps the others. -/
def ActsOnMaskedBits (f : Word → Word → Word) (g : Bool → Bool) : Prop :=
  ∀ x mask b, b < 32 → (f x mask).getLsbD b = if mask.getLsbD b then g (x.getLsbD b) else x.getLsbD b

theorem or_actsOnMaskedBits : ActsOnMaskedBits (fun x mask => x ||| mask) fun _ => true := by
  intro x mask b _
  cases h : mask.getLsbD b <;> simp [h]

theorem andnot_actsOnMaskedBits : ActsOnMaskedBits (fun x mask => x &&& ~~~mask) fun _ => false := by
  intro x mask b hb
  cases h : mask.getLsbD b <;> simp [h, hb, -BitVec.getLsbD_eq_getElem]

theorem xor_actsOnMaskedBits : ActsOnMaskedBits (fun x mask => x ^^^ mask) fun b => !b := by
  intro x mask b _
  cases h : mask.getLsbD b <;> simp [h]

/-- The selected update by the decoder's one-hot mask is a change of the indexed bit (R120). -/
theorem updateSelected_locate {f : Word → Word → Word} {g : Bool → Bool} (hf : ActsOnMaskedBits f g) (v : BitSet)
    {i : Int} (hi : 0 ≤ i) : updateSelected f v (locate i.toNat) = changeBitAt g v i := by
  refine value_ext_bits (by simp) fun k hk => ?_
  rw [length_updateSelected] at hk
  have hindex : k = i.toNat ↔ (k : Int) = i := by omega
  rw [bitAt_updateSelected (g := fun b hot => if hot then g b else b) hf (by simp) hk, bitAt_changeBitAt g i hk]
  simp [hindex]

/-- The command `mk`, which has no mask operand, changes the indexed bit by `g`, in the form that `wb` names (R121,
R123-R125). -/
structure ChangesIndexedBit (wb : Bool) (mk : Word → Instr) (g : Bool → Bool) : Prop where
  wellFormed : ∀ n arg, (mk arg).wellFormed n = true
  valid : ∀ {s : State} {arg : Word}, ValidIndex s.w.length arg →
    exec (mk arg) s = .next (presentVec wb (changeBitAt g s.w (sint32 arg)) s)
  invalid : ∀ {s : State} {arg : Word}, ¬ ValidIndex s.w.length arg →
    exec (mk arg) s = .next (raise .indexOutOfRange s)

theorem changesIndexedBit_of_changeBit {wb : Bool} {mk : Word → Instr} {f : Word → Word → Word} {g : Bool → Bool}
    (hwf : ∀ n arg, (mk arg).wellFormed n = true)
    (hexec : ∀ arg s, exec (mk arg) s = .next (changeBit f wb arg s)) (hf : ActsOnMaskedBits f g) :
    ChangesIndexedBit wb mk g where
  wellFormed := hwf
  valid h := by rw [hexec, changeBit, withIndex_of_valid h, updateSelected_locate hf _ h.1]
  invalid h := by rw [hexec, changeBit, withIndex_of_invalid h]

theorem set_changesIndexedBit (wb : Bool) : ChangesIndexedBit wb (.set wb) fun _ => true :=
  changesIndexedBit_of_changeBit (fun _ _ => rfl) (fun _ _ => rfl) or_actsOnMaskedBits

theorem unset_changesIndexedBit (wb : Bool) : ChangesIndexedBit wb (.unset wb) fun _ => false :=
  changesIndexedBit_of_changeBit (fun _ _ => rfl) (fun _ _ => rfl) andnot_actsOnMaskedBits

theorem flip_changesIndexedBit (wb : Bool) : ChangesIndexedBit wb (.flip wb) fun b => !b :=
  changesIndexedBit_of_changeBit (fun _ _ => rfl) (fun _ _ => rfl) xor_actsOnMaskedBits

theorem singleBitRule_of_changesIndexedBit {value mutator : BitVec 8} {mk : Bool → Word → Instr} {g : Bool → Bool}
    (hencoded : EncodedWriter value mutator fun _ wb c => mk wb c.arg)
    (hmk : ∀ wb, ChangesIndexedBit wb (mk wb) g) : SingleBitRule value mutator mk g :=
  ⟨hencoded, fun s wb _ =>
    ⟨fun h => ⟨_, _, (hmk wb).valid h, presentVec_showsVec wb (length_changeBitAt g s.w _),
        fun _ hk => bitAt_changeBitAt g _ hk⟩,
      fun h => ⟨_, (hmk wb).invalid h, raise_indexOutOfRange_showsError s⟩⟩⟩

theorem encodedWriter_set : EncodedWriter 0x02#8 0x22#8 (fun _ wb c => .set wb c.arg) :=
  encodedWriter_of_fields 0x02#5 (fun _ _ _ => rfl) (fun _ _ _ => rfl) (fun _ _ _ _ => rfl) (by simp [Instr.format])

theorem encodedWriter_unset : EncodedWriter 0x03#8 0x23#8 (fun _ wb c => .unset wb c.arg) :=
  encodedWriter_of_fields 0x03#5 (fun _ _ _ => rfl) (fun _ _ _ => rfl) (fun _ _ _ _ => rfl) (by simp [Instr.format])

theorem encodedWriter_flip : EncodedWriter 0x04#8 0x24#8 (fun _ wb c => .flip wb c.arg) :=
  encodedWriter_of_fields 0x04#5 (fun _ _ _ => rfl) (fun _ _ _ => rfl) (fun _ _ _ _ => rfl) (by simp [Instr.format])

/-- Settles O29: `|` with the one-hot mask makes the indexed bit 1. -/
theorem setSetsTheIndexedBit : Obligations.SetSetsTheIndexedBit :=
  singleBitRule_of_changesIndexedBit encodedWriter_set set_changesIndexedBit

/-- Settles O30: `& ~` with the one-hot mask makes the indexed bit 0. -/
theorem unsetClearsTheIndexedBit : Obligations.UnsetClearsTheIndexedBit :=
  singleBitRule_of_changesIndexedBit encodedWriter_unset unset_changesIndexedBit

/-- Settles O31: `^` with the one-hot mask complements the indexed bit. -/
theorem flipTogglesTheIndexedBit : Obligations.FlipTogglesTheIndexedBit :=
  singleBitRule_of_changesIndexedBit encodedWriter_flip flip_changesIndexedBit

/-! ### A single-bit command and then GET -/

/-- A well-formed command decodes from its encoding, so issuing it executes it (R70, R80). -/
theorem issue_of_wellFormed {s : State} {i : Instr} (hb : s.Built) (hwf : i.wellFormed s.w.length = true) :
    s.issue i = exec i s :=
  (issue_of_built hb i).trans (commandCycle_of_legal (decode_of_carries (carries_encode hwf)))

theorem issue_get_of_valid {s : State} {arg : Word} (hb : s.Built) (h : ValidIndex s.w.length arg) :
    s.issue (.get arg) = .next (presentBit (bitAt s.w (sint32 arg).toNat) s) :=
  (issue_of_wellFormed hb rfl).trans (exec_get_of_valid h)

theorem issue_get_of_invalid {s : State} {arg : Word} (hb : s.Built) (h : ¬ ValidIndex s.w.length arg) :
    s.issue (.get arg) = .next (raise .indexOutOfRange s) :=
  (issue_of_wellFormed hb rfl).trans (exec_get_of_invalid h)

theorem ValidIndex.toNat_lt {n : Nat} {arg : Word} (h : ValidIndex n arg) : (sint32 arg).toNat < 32 * n := by
  obtain ⟨hlow, hhigh⟩ := h
  omega

theorem ValidIndex.toNat_eq_iff {n : Nat} {a b : Word} (h : ValidIndex n b) :
    ((sint32 b).toNat : Int) = sint32 a ↔ b = a := by
  rw [Int.toNat_of_nonneg h.1]
  exact BitVec.toInt_inj

/-- The bit that GET reads right after the indexed bit was changed, by the bit that it read before (R126). -/
theorem ChangesIndexedBit.then_get {mk : Word → Instr} {g : Bool → Bool} (hmk : ChangesIndexedBit true mk g)
    {s : State} {a b : Word} (hb : s.Built) (ha : ValidIndex s.w.length a) (hread : ValidIndex s.w.length b) :
    ∃ t u, s.issue (mk a) = .next t ∧ t.issue (.get b) = .next u ∧
      u.out.resBit = if b = a then g (bitAt s.w (sint32 b).toNat) else bitAt s.w (sint32 b).toNat := by
  have hbuilt : (presentVec true (changeBitAt g s.w (sint32 a)) s).Built := by simpa [State.Built] using hb
  refine ⟨_, _, (issue_of_wellFormed hb (hmk.wellFormed _ a)).trans (hmk.valid ha),
    issue_get_of_valid hbuilt (by simpa using hread), ?_⟩
  calc bitAt (changeBitAt g s.w (sint32 a)) (sint32 b).toNat
      = _ := bitAt_changeBitAt g _ hread.toNat_lt
    _ = _ := by simp only [hread.toNat_eq_iff]

/-- Settles O33: `ChangesIndexedBit.then_get` for SET, UNSET and FLIP. -/
theorem singleBitCommandThenGet : Obligations.SingleBitCommandThenGet :=
  fun _ _ _ hb ha hread => ⟨_, issue_get_of_valid hb hread, (set_changesIndexedBit true).then_get hb ha hread,
    (unset_changesIndexedBit true).then_get hb ha hread, (flip_changesIndexedBit true).then_get hb ha hread⟩

end Sys2Proof.Machine
end

section
/-! The host's bulk sequences and its iteration (spec/41_bit_access.md R131, R132), by what each command they issue
does. -/

namespace Sys2Proof.Machine

/-! ### Bulk index sequences -/

/-- The engine after a bulk sequence of valid indices, each changing its bit by `g`. -/
def afterBulk (g : Bool → Bool) (args : List Word) (s : State) : State :=
  args.foldl (fun t a => presentVec true (changeBitAt g t.w (sint32 a)) t) s

@[simp] theorem afterBulk_nil (g : Bool → Bool) (s : State) : afterBulk g [] s = s := rfl

@[simp] theorem afterBulk_cons (g : Bool → Bool) (a : Word) (args : List Word) (s : State) :
    afterBulk g (a :: args) s = afterBulk g args (presentVec true (changeBitAt g s.w (sint32 a)) s) := rfl

@[simp] theorem length_afterBulk (g : Bool → Bool) (args : List Word) (s : State) :
    (afterBulk g args s).w.length = s.w.length := by
  induction args generalizing s with
  | nil => rfl
  | cons a args ih => simp [ih]

theorem afterBulk_err_keeps (g : Bool → Bool) (args : List Word) {s : State} (h : s.out.err = false) :
    (afterBulk g args s).out.err = false := by
  induction args generalizing s with
  | nil => exact h
  | cons a args ih => exact ih rfl

theorem afterBulk_err (g : Bool → Bool) {args : List Word} (h : args ≠ []) (s : State) :
    (afterBulk g args s).out.err = false := by
  obtain ⟨a, args, rfl⟩ := List.exists_cons_of_ne_nil h
  exact afterBulk_err_keeps g args rfl

/-- Each bit is changed as many times as the list names it. -/
theorem bitAt_afterBulk (g : Bool → Bool) (args : List Word) {s : State} {k : Nat} (hk : k < 32 * s.w.length) :
    bitAt (afterBulk g args s).w k = g^[args.countP fun a => decide (sint32 a = (k : Int))] (bitAt s.w k) := by
  induction args generalizing s with
  | nil => rfl
  | cons a args ih =>
    rw [afterBulk_cons, ih (by simpa using hk), presentVec_w, if_pos rfl, bitAt_changeBitAt g _ hk]
    by_cases ha : sint32 a = (k : Int)
    · simp [ha, Function.iterate_succ_apply]
    · simp [ha, Ne.symm ha]

/-- The host gets past the valid indices of a list, and goes on from what they left (R132). -/
theorem runUntilError_valid_append {mk : Word → Instr} {g : Bool → Bool} (hmk : ChangesIndexedBit true mk g)
    {args : List Word} {s : State} (hb : s.Built) (hargs : ∀ a ∈ args, ValidIndex s.w.length a) (rest : List Instr) :
    runUntilError (args.map mk ++ rest) s = runUntilError rest (afterBulk g args s) := by
  induction args generalizing s with
  | nil => rfl
  | cons a args ih =>
    obtain ⟨ha, hargs⟩ := List.forall_mem_cons.mp hargs
    have hissue := (issue_of_wellFormed hb (hmk.wellFormed _ a)).trans (hmk.valid ha)
    rw [List.map_cons, List.cons_append, runUntilError_cons hissue, afterBulk_cons]
    exact ih (by simpa [State.Built] using hb) (by simpa using hargs)

/-- The host stops at an invalid index, whatever it would have issued after it (R121, R132). -/
theorem runUntilError_invalid_cons {wb : Bool} {mk : Word → Instr} {g : Bool → Bool}
    (hmk : ChangesIndexedBit wb mk g) {bad : Word} {s : State} (hb : s.Built) (hbad : ¬ ValidIndex s.w.length bad)
    (rest : List Instr) : runUntilError (mk bad :: rest) s = .next (raise .indexOutOfRange s) := by
  rw [runUntilError_cons ((issue_of_wellFormed hb (hmk.wellFormed _ bad)).trans (hmk.invalid hbad))]
  rfl

theorem iterate_true_countP {α : Type} (p : α → Bool) (l : List α) (b : Bool) :
    (fun _ => true)^[l.countP p] b = (b || l.any p) := by
  induction l generalizing b with
  | nil => simp
  | cons a l ih => cases h : p a <;> simp [h, ih, Function.iterate_succ_apply]

theorem iterate_false_countP {α : Type} (p : α → Bool) (l : List α) (b : Bool) :
    (fun _ => false)^[l.countP p] b = (b && !l.any p) := by
  induction l generalizing b with
  | nil => simp
  | cons a l ih => cases h : p a <;> simp [h, ih, Function.iterate_succ_apply]

theorem iterate_not (n : Nat) (b : Bool) : (fun b => !b)^[n] b = (b ^^ decide (n % 2 = 1)) := by
  induction n with
  | zero => simp
  | succ n ih =>
    have hparity : ((n + 1) % 2 = 1) = ¬ n % 2 = 1 := propext (by omega)
    rw [Function.iterate_succ_apply', ih]
    simp only [hparity, decide_not, Bool.xor_not]

/-- The three bulk commands, and what changing a bit once for each element of a list that `p` holds of makes of it. -/
theorem bulk_command_effect {mk : Word → Instr} (hmk : mk = .set true ∨ mk = .unset true ∨ mk = .flip true) :
    ∃ g, ChangesIndexedBit true mk g ∧ ∀ (p : Word → Bool) (l : List Word) (b : Bool),
      (mk = .set true → g^[l.countP p] b = (b || l.any p)) ∧
      (mk = .unset true → g^[l.countP p] b = (b && !l.any p)) ∧
      (mk = .flip true → g^[l.countP p] b = (b ^^ decide (l.countP p % 2 = 1))) := by
  obtain rfl | rfl | rfl := hmk
  · exact ⟨_, set_changesIndexedBit true, fun p l b => ⟨fun _ => iterate_true_countP p l b,
      fun h => (nomatch congrFun h 0#32), fun h => (nomatch congrFun h 0#32)⟩⟩
  · exact ⟨_, unset_changesIndexedBit true, fun p l b => ⟨fun h => (nomatch congrFun h 0#32),
      fun _ => iterate_false_countP p l b, fun h => (nomatch congrFun h 0#32)⟩⟩
  · exact ⟨_, flip_changesIndexedBit true, fun p l b => ⟨fun h => (nomatch congrFun h 0#32),
      fun h => (nomatch congrFun h 0#32), fun _ => iterate_not _ b⟩⟩

/-- Settles O53: the host gets past the valid indices with each bit changed once for each time it is named, and stops
at the invalid one. -/
theorem bulkSequenceStopsAtFirstError : Obligations.BulkSequenceStopsAtFirstError := by
  intro mk hmk pre post bad s hb hpre hbad
  obtain ⟨g, hchanges, heffect⟩ := bulk_command_effect hmk
  have hpast := runUntilError_valid_append hchanges hb hpre
  have hbuilt : (afterBulk g pre s).Built := by simpa [State.Built] using hb
  refine ⟨afterBulk g pre s, raise .indexOutOfRange (afterBulk g pre s), by simpa using hpast [],
    fun hne => afterBulk_err g hne s, ?_, rfl, rfl, rfl, length_afterBulk g pre s, fun k hk => ?_⟩
  · rw [List.map_append, hpast, List.map_cons]
    exact runUntilError_invalid_cons hchanges hbuilt (by simpa using hbad) _
  · rw [bitAt_afterBulk g pre hk]
    exact heffect _ pre _

/-! ### Iteration -/

/-- Every cursor position fits a signed `ARG`, since `BIT_COUNT < 2^31` on an engine that can be built (R5, R131). -/
theorem sint32_ofInt {s : State} (hb : s.Built) {k : Int} (hlow : -1 ≤ k) (hhigh : k ≤ 32 * (s.w.length : Int)) :
    sint32 (BitVec.ofInt 32 k) = k := by
  obtain ⟨-, hmax⟩ := hb
  have hlength : s.w.length ≤ 67108863 := hmax
  exact BitVec.toInt_ofInt_eq_self (by decide) (by omega) (by omega)

theorem cursorRead_of_lt {s : State} (hb : s.Built) {k : Nat} (hk : k < 32 * s.w.length) :
    cursorRead (k : Int) s = .next (presentBit (bitAt s.w k) s) := by
  have harg := sint32_ofInt hb (k := k) (by omega) (by omega)
  have hvalid : ValidIndex s.w.length (BitVec.ofInt 32 k) := by
    rw [ValidIndex, harg]
    omega
  rw [cursorRead, issue_get_of_valid hb hvalid, harg, Int.toNat_natCast]

/-- The cursor before the first advance and the exhausted one. -/
theorem cursorRead_of_end {s : State} (hb : s.Built) {k : Int} (hk : k = -1 ∨ k = 32 * (s.w.length : Int)) :
    cursorRead k s = .next (raise .indexOutOfRange s) := by
  have harg := sint32_ofInt hb (k := k) (by omega) (by omega)
  refine issue_get_of_invalid hb ?_
  rw [ValidIndex, harg]
  omega

theorem cursorAdvance_before {n k : Nat} (hk : k ≤ 32 * n) : cursorAdvance n ((k : Int) - 1) = k := by
  have hlt : (k : Int) - 1 < (bitCount n : Int) := by
    rw [bitCount]
    omega
  rw [cursorAdvance, if_pos hlt, Int.sub_add_cancel]

theorem cursorAdvance_exhausted (n : Nat) : cursorAdvance n (32 * (n : Int)) = 32 * (n : Int) :=
  if_neg (by simp [bitCount])

theorem cursorLive_iff (n : Nat) (k : Int) : cursorLive n k = true ↔ k < 32 * (n : Int) := by
  simp [cursorLive, bitCount]

theorem cursorLive_exhausted (n : Nat) : cursorLive n (32 * (n : Int)) = false := by
  rw [← Bool.not_eq_true, cursorLive_iff]
  exact Int.lt_irrefl _

theorem enumerate_of_exhausted {s : State} {k : Int} (fuel : Nat)
    (h : cursorLive s.w.length (cursorAdvance s.w.length k) = false) : enumerate (fuel + 1) k s = .next ([], s) := by
  simp [enumerate, h]

/-- One round of the host loop: advance, read a bit without error, and go on from there. -/
theorem enumerate_of_read {s t u : State} {k : Int} {fuel : Nat} {bits : List Bool}
    (hlive : cursorLive s.w.length (cursorAdvance s.w.length k) = true)
    (hread : cursorRead (cursorAdvance s.w.length k) s = .next t) (herr : t.out.err = false)
    (hrest : enumerate fuel (cursorAdvance s.w.length k) t = .next (bits, u)) :
    enumerate (fuel + 1) k s = .next (t.out.resBit :: bits, u) := by
  simp [enumerate, hlive, hread, herr, hrest]

/-- From a cursor just before bit `k`, with `m` bits left, the host loop reads these bits in order. -/
theorem enumerate_from (m k : Nat) {s : State} (hb : s.Built) (hm : k + m = 32 * s.w.length) :
    ∃ t, enumerate (m + 1) ((k : Int) - 1) s = .next ((List.range' k m).map (bitAt s.w), t) ∧ t.w = s.w ∧
      t.pending = s.pending := by
  induction m generalizing k s with
  | zero =>
    have hend : (k : Int) = 32 * (s.w.length : Int) := by omega
    exact ⟨s, enumerate_of_exhausted 0 (by rw [cursorAdvance_before (by omega), hend, cursorLive_exhausted]), rfl, rfl⟩
  | succ m ih =>
    have hk : k < 32 * s.w.length := by omega
    have hadvance : cursorAdvance s.w.length ((k : Int) - 1) = k := cursorAdvance_before hk.le
    have hlive : cursorLive s.w.length k = true := (cursorLive_iff _ _).mpr (by omega)
    have hnext : ((k + 1 : Nat) : Int) - 1 = k := by omega
    obtain ⟨u, hrest, hw, hpending⟩ := ih (k + 1) (s := presentBit (bitAt s.w k) s) hb
      (by rw [presentBit_w]; omega)
    rw [hnext] at hrest
    rw [← hadvance] at hlive hrest
    exact ⟨u, enumerate_of_read hlive (hadvance.symm ▸ cursorRead_of_lt hb hk) rfl hrest, hw, hpending⟩

/-- Settles O54: the whole enumeration is `enumerate_from` bit 0, and both ends of the cursor are invalid indices. -/
theorem iterationYieldsBitsInOrder : Obligations.IterationYieldsBitsInOrder := by
  intro s hb
  refine ⟨?_, ⟨_, cursorRead_of_end hb (.inl rfl), raise_indexOutOfRange_showsError s⟩,
    ⟨_, cursorRead_of_end hb (.inr rfl), raise_indexOutOfRange_showsError s⟩, cursorAdvance_exhausted _,
    cursorLive_exhausted _⟩
  rw [List.range_eq_range']
  exact enumerate_from (32 * s.w.length) 0 hb (by omega)

end Sys2Proof.Machine
end

section
/-! The boolean combinators (spec/42_boolean.md R140-R153): each is a word operation that acts bit by bit, so its result
on a whole value is known by its bits. -/

namespace Sys2Proof.Machine

/-! ### Word operations that act bit by bit -/

/-- Bit `b` of `f x y` is `g` of bit `b` of `x` and bit `b` of `y`: no bit of a lane crosses to another (R140). -/
def ActsBitwise (f : Word → Word → Word) (g : Bool → Bool → Bool) : Prop :=
  ∀ x y b, b < 32 → (f x y).getLsbD b = g (x.getLsbD b) (y.getLsbD b)

theorem and_actsBitwise : ActsBitwise (fun x y => x &&& y) fun a b => a && b :=
  fun _ _ _ _ => BitVec.getLsbD_and

theorem or_actsBitwise : ActsBitwise (fun x y => x ||| y) fun a b => a || b :=
  fun _ _ _ _ => BitVec.getLsbD_or

theorem xor_actsBitwise : ActsBitwise (fun x y => x ^^^ y) fun a b => a ^^ b :=
  fun _ _ _ _ => BitVec.getLsbD_xor

theorem getLsbD_complement (x : Word) {b : Nat} (hb : b < 32) : (~~~x).getLsbD b = !x.getLsbD b := by
  rw [BitVec.getLsbD_not, decide_eq_true hb, Bool.true_and]

/-- NAND, NOR and NOTXOR complement the result (R143, R146, R149). -/
theorem ActsBitwise.complement {f : Word → Word → Word} {g : Bool → Bool → Bool} (hf : ActsBitwise f g) :
    ActsBitwise (fun x y => ~~~f x y) fun a b => !g a b := by
  intro x y b hb
  rw [getLsbD_complement _ hb, hf x y b hb]

/-- ANDNOT, ORNOT and XORNOT complement the mask (R142, R145, R148). -/
theorem ActsBitwise.complement_mask {f : Word → Word → Word} {g : Bool → Bool → Bool} (hf : ActsBitwise f g) :
    ActsBitwise (fun x y => f x (~~~y)) fun a b => g a (!b) := by
  intro x y b hb
  rw [hf x (~~~y) b hb, getLsbD_complement _ hb]

/-! ### The nine combinators of `W` and `MASK` -/

/-- The class-W command `mk` of format FM has operation code `op` and combines `W` with its mask by `f`. For a
constructor of `Instr` each field holds by the model's definitions. -/
structure IsCombinator (op : BitVec 5) (mk : Bool → BitSet → Instr) (f : Word → Word → Word) : Prop where
  opcode : ∀ wb m, (mk wb m).opcode = op := by intros; rfl
  writeBack : ∀ wb m, (mk wb m).writeBack = wb := by intros; rfl
  format : ∀ wb m, (mk wb m).format = .fm := by intros; rfl
  maskBus : ∀ n wb m, (mk wb m).maskBus n = m := by intros; rfl
  exec : ∀ wb m s, exec (mk wb m) s = .next (combine f wb m s) := by intros; rfl

theorem IsCombinator.encodedWriter {op : BitVec 5} {mk : Bool → BitSet → Instr} {f : Word → Word → Word}
    (hmk : IsCombinator op mk f) :
    EncodedWriter (cmdWord false op) (cmdWord true op) fun n wb c => mk wb (maskValue n c) :=
  encodedWriter_of_fields op (fun _ _ _ => hmk.opcode _ _) (fun _ _ _ => hmk.writeBack _ _) (by simp [hmk.format])
    fun _ _ _ _ => (hmk.maskBus _ _ _).symm

theorem combinatorRule_of_actsBitwise (op : BitVec 5) {mk : Bool → BitSet → Instr} {f : Word → Word → Word}
    {g : Bool → Bool → Bool} (hmk : IsCombinator op mk f) (hf : ActsBitwise f g) :
    CombinatorRule (cmdWord false op) (cmdWord true op) mk g :=
  ⟨hmk.encodedWriter, fun s wb m _ =>
    ⟨_, _, hmk.exec wb m s, presentVec_showsVec wb (length_lift2 f s.w m), fun _ hk => bitAt_lift2 hf hk⟩⟩

/-- Settles O34: AND, OR and XOR act bit by bit, and the other six complement the mask or the result of one of them. -/
theorem combinatorsActBitByBit : Obligations.CombinatorsActBitByBit :=
  ⟨combinatorRule_of_actsBitwise 0x08#5 {} and_actsBitwise,
    combinatorRule_of_actsBitwise 0x09#5 {} and_actsBitwise.complement_mask,
    combinatorRule_of_actsBitwise 0x0A#5 {} and_actsBitwise.complement,
    combinatorRule_of_actsBitwise 0x0B#5 {} or_actsBitwise,
    combinatorRule_of_actsBitwise 0x0C#5 {} or_actsBitwise.complement_mask,
    combinatorRule_of_actsBitwise 0x0D#5 {} or_actsBitwise.complement,
    combinatorRule_of_actsBitwise 0x0E#5 {} xor_actsBitwise,
    combinatorRule_of_actsBitwise 0x0F#5 {} xor_actsBitwise.complement_mask,
    combinatorRule_of_actsBitwise 0x10#5 {} xor_actsBitwise.complement⟩

/-! ### NOT -/

theorem encodedWriter_not : EncodedWriter 0x11#8 0x31#8 (fun _ wb _ => .not wb) :=
  encodedWriter_of_fields 0x11#5 (fun _ _ _ => rfl) (fun _ _ _ => rfl) (by simp [Instr.format]) (by simp [Instr.format])

/-- Settles O35: NOT presents the complement of every word, and so of every bit. -/
theorem notComplementsEveryBit : Obligations.NotComplementsEveryBit :=
  ⟨encodedWriter_not, fun s wb =>
    ⟨_, _, rfl, presentVec_showsVec wb (length_lift1 _ s.w),
      fun _ hk => bitAt_lift1 (g := fun b => !b) (fun x _ hb => getLsbD_complement x hb) hk⟩⟩

/-! ### XORNOT and NOTXOR -/

/-- Settles O36: the two commands are one combinator, because their word operations are equal. -/
theorem xornotEqualsNotxor : Obligations.XornotEqualsNotxor := by
  have hword (a m : Word) : a ^^^ ~~~m = ~~~(a ^^^ m) := BitVec.not_xor_right.symm
  refine ⟨hword, fun wb m s => ?_⟩
  calc exec (.xornot wb m) s
      = .next (combine (fun x y => x ^^^ ~~~y) wb m s) := rfl
    _ = .next (combine (fun x y => ~~~(x ^^^ y)) wb m s) := by simp only [hword]
    _ = exec (.notxor wb m) s := rfl

/-! ### A mask of one bit -/

/-- A combinator that changes the bits its mask selects, on a mask with bit `i` alone, changes bit `i` alone. -/
theorem lift2_of_one_hot {f : Word → Word → Word} {g : Bool → Bool} (hf : ActsOnMaskedBits f g) {v m : BitSet}
    {i : Int} (hm : ∀ k < 32 * v.length, bitAt m k = decide ((k : Int) = i)) : lift2 f v m = changeBitAt g v i := by
  refine value_ext_bits (by simp) fun k hk => ?_
  rw [length_lift2] at hk
  have hcombined : bitAt (lift2 f v m) k = if bitAt m k then g (bitAt v k) else bitAt v k :=
    bitAt_lift2 (g := fun b hot => if hot then g b else b) hf hk
  rw [hcombined, hm k hk, bitAt_changeBitAt g i hk]
  simp only [decide_eq_true_eq]

/-- The combinator by `f` on a mask with the indexed bit alone is the single-bit command that changes that bit the way
`f` changes the bits of its mask. -/
theorem exec_eq_of_one_hot {wb : Bool} {byMask : BitSet → Instr} {byIndex : Word → Instr} {f : Word → Word → Word}
    {g : Bool → Bool} (hmask : ∀ m s, exec (byMask m) s = .next (combine f wb m s)) (hf : ActsOnMaskedBits f g)
    (hindex : ChangesIndexedBit wb byIndex g) {s : State} {arg : Word} {m : BitSet}
    (hvalid : ValidIndex s.w.length arg)
    (hm : ∀ k < 32 * s.w.length, bitAt m k = decide ((k : Int) = sint32 arg)) :
    exec (byMask m) s = exec (byIndex arg) s := by
  rw [hmask, combine, lift2_of_one_hot hf hm, hindex.valid hvalid]

/-- Settles O37: OR, ANDNOT and XOR use the word operations of SET, UNSET and FLIP. -/
theorem maskVariantsMatchSingleBits : Obligations.MaskVariantsMatchSingleBits :=
  ⟨fun _ => ⟨rfl, rfl, rfl⟩, fun _ wb _ _ hvalid _ hm =>
    ⟨exec_eq_of_one_hot (byMask := .or wb) (fun _ _ => rfl) or_actsOnMaskedBits (set_changesIndexedBit wb) hvalid hm,
      exec_eq_of_one_hot (byMask := .andnot wb) (fun _ _ => rfl) andnot_actsOnMaskedBits (unset_changesIndexedBit wb)
        hvalid hm,
      exec_eq_of_one_hot (byMask := .xor wb) (fun _ _ => rfl) xor_actsOnMaskedBits (flip_changesIndexedBit wb)
        hvalid hm⟩⟩

/-! ### Identities -/

/-- A combined value is known by its lanes. -/
theorem lift2_eq_of_words {f : Word → Word → Word} {v m u : BitSet} (hl : u.length = v.length)
    (h : ∀ j < v.length, f (wordAt v j) (wordAt m j) = wordAt u j) : lift2 f v m = u := by
  refine value_ext (by simp [hl]) fun j hj => ?_
  rw [length_lift2] at hj
  rw [wordAt_lift2 hj, h j hj]

theorem lift2_and_ones (v : BitSet) : lift2 (fun x y => x &&& y) v (ones v.length) = v := by
  refine lift2_eq_of_words rfl fun j hj => ?_
  rw [ones, wordAt_ofWords_of_lt _ hj]
  exact BitVec.and_allOnes

theorem lift2_or_zeros (v : BitSet) : lift2 (fun x y => x ||| y) v (zeros v.length) = v :=
  lift2_eq_of_words rfl fun j _ => by rw [wordAt_zeros, BitVec.or_zero]

theorem lift2_xor_self (v : BitSet) : lift2 (fun x y => x ^^^ y) v v = zeros v.length :=
  lift2_eq_of_words (length_zeros _) fun j _ => by rw [wordAt_zeros, BitVec.xor_self]

theorem lift1_not_twice (v : BitSet) : lift1 (fun x => ~~~x) (lift1 (fun x => ~~~x) v) = v := by
  refine value_ext (by simp) fun j hj => ?_
  have hj' : j < v.length := by simpa using hj
  rw [wordAt_lift1 (by simpa using hj'), wordAt_lift1 hj', BitVec.not_not]

/-- Settles O38: in mutator form each command leaves its value in `W`, and the four values are the word identities. -/
theorem booleanIdentities : Obligations.BooleanIdentities := fun s =>
  ⟨⟨_, rfl, lift2_and_ones s.w⟩, ⟨_, rfl, lift2_or_zeros s.w⟩, ⟨_, rfl, lift2_xor_self s.w⟩,
    ⟨_, _, rfl, rfl, lift1_not_twice s.w⟩⟩

end Sys2Proof.Machine
end

section
/-! The queries ISEMPTY, HASALL, HASANY and HASNONE (spec/43_query.md R170-R175): each flag is a comparison of `W`, or of
the lanes `W & M`, with a value of `N` words. -/

namespace Sys2Proof.Machine

/-! ### The AND lanes and the comparator -/

@[simp] theorem length_andLanes (v m : BitSet) : (andLanes v m).length = v.length :=
  length_lift2 _ v m

theorem wordAt_andLanes {v m : BitSet} {j : Nat} (h : j < v.length) :
    wordAt (andLanes v m) j = wordAt v j &&& wordAt m j :=
  wordAt_lift2 h

theorem equalValues_iff_eq {v m : BitSet} (h : v.length = m.length) : equalValues v m = true ↔ v = m :=
  ⟨fun heq => value_ext h ((equalValues_iff v m).mp heq), fun heq => (equalValues_iff v m).mpr fun _ _ => by rw [heq]⟩

theorem isZero_iff_eq_zeros {v : BitSet} : isZero v = true ↔ v = zeros v.length :=
  equalValues_iff_eq (length_zeros _).symm

theorem hasAllOf_iff_andLanes_eq {v m : BitSet} (h : m.length = v.length) :
    hasAllOf v m = true ↔ andLanes v m = m :=
  equalValues_iff_eq ((length_andLanes v m).trans h.symm)

/-! ### Each flag by the words -/

theorem hasAllOf_iff (v m : BitSet) :
    hasAllOf v m = true ↔ ∀ j < v.length, wordAt v j &&& wordAt m j = wordAt m j := by
  rw [hasAllOf, equalValues_iff, length_andLanes]
  exact forall₂_congr fun j hj => by rw [wordAt_andLanes hj]

theorem hasNoneOf_iff (v m : BitSet) :
    hasNoneOf v m = true ↔ ∀ j < v.length, wordAt v j &&& wordAt m j = 0#32 := by
  rw [hasNoneOf, isZero_iff, length_andLanes]
  exact forall₂_congr fun j hj => by rw [wordAt_andLanes hj]

theorem hasAnyOf_eq_not_hasNoneOf (v m : BitSet) : hasAnyOf v m = !hasNoneOf v m := rfl

theorem hasAnyOf_eq_false_iff (v m : BitSet) :
    hasAnyOf v m = false ↔ ∀ j < v.length, wordAt v j &&& wordAt m j = 0#32 := by
  rw [hasAnyOf_eq_not_hasNoneOf, Bool.not_eq_false', hasNoneOf_iff]

/-! ### The commands -/

theorem presentFlag_showsFlag (b : Bool) (s : State) : ShowsFlag b s (presentFlag b s) := by
  simp [ShowsFlag, Ends]

theorem encodedReader_isempty : EncodedReader 0x19#8 0x39#8 (fun _ _ => .isempty) :=
  encodedReader_of_fields 0x19#5 (fun _ _ => rfl) (fun _ _ => rfl) (by simp [Instr.format]) (by simp [Instr.format])

theorem encodedReader_hasall : EncodedReader 0x1A#8 0x3A#8 (fun n c => .hasall (maskValue n c)) :=
  encodedReader_of_fields 0x1A#5 (fun _ _ => rfl) (fun _ _ => rfl) (by simp [Instr.format]) fun _ _ _ => rfl

theorem encodedReader_hasany : EncodedReader 0x1B#8 0x3B#8 (fun n c => .hasany (maskValue n c)) :=
  encodedReader_of_fields 0x1B#5 (fun _ _ => rfl) (fun _ _ => rfl) (by simp [Instr.format]) fun _ _ _ => rfl

theorem encodedReader_hasnone : EncodedReader 0x1C#8 0x3C#8 (fun n c => .hasnone (maskValue n c)) :=
  encodedReader_of_fields 0x1C#5 (fun _ _ => rfl) (fun _ _ => rfl) (by simp [Instr.format]) fun _ _ _ => rfl

/-- Settles O39: each query presents its comparison on `RES_FLAG` alone, and the comparison is known by the words. -/
theorem queryFlags : Obligations.QueryFlags :=
  ⟨encodedReader_isempty, encodedReader_hasall, encodedReader_hasany, encodedReader_hasnone,
    fun s => ⟨_, _, rfl, presentFlag_showsFlag _ s, isZero_iff s.w⟩,
    fun s m _ =>
      ⟨⟨_, _, rfl, presentFlag_showsFlag _ s, hasAllOf_iff s.w m⟩,
        ⟨_, _, rfl, presentFlag_showsFlag _ s, hasAnyOf_eq_false_iff s.w m⟩,
        ⟨_, _, rfl, presentFlag_showsFlag _ s, hasNoneOf_iff s.w m⟩⟩⟩

/-! ### The queries among themselves -/

/-- HASALL says that the lanes `W & M` are `M` itself, so they are not ZERO when `M` is not. -/
theorem hasAnyOf_of_hasAllOf {v m : BitSet} (hl : m.length = v.length) (hm : m ≠ zeros v.length)
    (hall : hasAllOf v m = true) : hasAnyOf v m = true := by
  have hlanes : andLanes v m = m := (hasAllOf_iff_andLanes_eq hl).mp hall
  have hnonzero : ¬ isZero m = true := fun hzero => hm (hl ▸ isZero_iff_eq_zeros.mp hzero)
  rw [hasAnyOf, hlanes, Bool.not_eq_true', Bool.eq_false_iff]
  exact hnonzero

/-- ONES leaves every lane as it is in `W`. -/
theorem hasNoneOf_ones (v : BitSet) : hasNoneOf v (ones v.length) = isZero v :=
  congrArg isZero (lift2_and_ones v)

/-- Settles O40: R175's three facts are facts of the comparisons that the four queries present. -/
theorem queriesAgree : Obligations.QueriesAgree := fun s m hl =>
  ⟨_, _, _, _, _, rfl, rfl, rfl, rfl, rfl, hasAnyOf_eq_not_hasNoneOf s.w m, hasAnyOf_of_hasAllOf hl,
    (hasNoneOf_ones s.w).symm⟩

end Sys2Proof.Machine
end

section
/-! SHIFT, one direction at a time (spec/44_shift.md R190, R195-R200). A count is `d` or `-d`. A shift by `d` shows at
index `i` the bit of index `i - d`; a shift by `-d` shows the bit of index `i + d`, and a value shows 0 past its words.
What is said of SHIFT follows from these two equations. -/

namespace Sys2Proof.Machine

/-! ### The bits of the shifted value in each direction -/

theorem bitAt_shiftValue_up (v : BitSet) (d i : Nat) :
    bitAt (shiftValue v (d : Int)) i = (decide (d ≤ i ∧ i < bitCount v.length) && bitAt v (i - d)) := by
  by_cases hi : i < bitCount v.length
  · have hsource : (0 ≤ (i : Int) - d ∧ (i : Int) - d < (bitCount v.length : Int)) ↔
        (d ≤ i ∧ i < bitCount v.length) := by omega
    have hindex : ((i : Int) - d).toNat = i - d := by omega
    simp only [bitAt_shiftValue hi, hsource, hindex]
  · rw [bitAt_of_le (by simpa using hi)]
    simp [hi]

/-- There is no upper bound on `i + d` to test: past the words of `v` both sides are 0. -/
theorem bitAt_shiftValue_down (v : BitSet) (d i : Nat) : bitAt (shiftValue v (-(d : Int))) i = bitAt v (i + d) := by
  by_cases hi : i < bitCount v.length
  · have hindex : ((i : Int) - -d).toNat = i + d := by omega
    rw [bitAt_shiftValue hi, hindex]
    by_cases hsource : i + d < bitCount v.length
    · rw [decide_eq_true (by omega), Bool.true_and]
    · rw [bitAt_of_le (i := i + d) (by omega), Bool.and_false]
  · rw [bitAt_of_le (by simpa using hi), bitAt_of_le (by omega)]

/-- Shifts up add: a bit that the first one drops, the second would have dropped (R190). -/
theorem shiftValue_up_up (v : BitSet) (a b : Nat) :
    shiftValue (shiftValue v (a : Int)) (b : Int) = shiftValue v ((a + b : Nat) : Int) := by
  refine value_ext_bits (by simp) fun i _ => ?_
  have hsource : (a + b ≤ i ∧ i < bitCount v.length) ↔
      ((b ≤ i ∧ i < bitCount v.length) ∧ (a ≤ i - b ∧ i - b < bitCount v.length)) := by omega
  have hindex : i - (a + b) = i - b - a := by omega
  simp only [bitAt_shiftValue_up, length_shiftValue, hsource, hindex, Bool.decide_and, Bool.and_assoc]

theorem shiftValue_down_down (v : BitSet) (a b : Nat) :
    shiftValue (shiftValue v (-(a : Int))) (-(b : Int)) = shiftValue v (-((a + b : Nat) : Int)) := by
  refine value_ext_bits (by simp) fun i _ => ?_
  have hindex : i + (a + b) = i + b + a := by omega
  simp only [bitAt_shiftValue_down, hindex]

/-- A count of no bits is R190's first case. -/
theorem shiftValue_zero (v : BitSet) : shiftValue v 0 = v := if_pos rfl

/-- R190, R196: no bit survives a count of at least `BIT_COUNT`. -/
theorem shiftValue_of_le {v : BitSet} {c : Int} (h : 32 * v.length ≤ c.natAbs) :
    shiftValue v c = List.replicate v.length 0#32 := by
  rw [← zeros_eq_replicate]
  refine value_ext_bits (by simp) fun i hi => ?_
  rw [length_shiftValue, bitCount] at hi
  have hsource : ¬ (0 ≤ (i : Int) - c ∧ (i : Int) - c < (bitCount v.length : Int)) := by
    unfold bitCount
    omega
  rw [bitAt_shiftValue hi, decide_eq_false hsource, Bool.false_and, bitAt_zeros]

/-! ### The two word-level passes

Each pass alone is a shift of its own, the sub-word pass by `s` and the whole-word pass by `32 * k`. -/

/-- The carry into word `j` is the `s` highest bits of word `j - 1` (R192). -/
theorem getLsbD_carryUp (v : BitSet) {s : Nat} (hs : s < 32) (j b : Nat) :
    (carryUp v s j).getLsbD b = (decide (0 < j ∧ b < s) && bitAt v (32 * j + b - s)) := by
  unfold carryUp
  by_cases hj : j = 0
  · simp [hj]
  · rw [if_neg hj, BitVec.getLsbD_ushiftRight]
    by_cases hb : b < s
    · have hindex : 32 * (j - 1) + (32 - s + b) = 32 * j + b - s := by omega
      rw [getLsbD_wordAt v (by omega), hindex, decide_eq_true (by omega), Bool.true_and]
    · simp [BitVec.getLsbD_of_ge, hb, show 32 ≤ 32 - s + b by omega]

/-- The carry into word `j` is the `s` lowest bits of word `j + 1` (R193). -/
theorem getLsbD_carryDown (v : BitSet) {s b : Nat} (hs : s < 32) (hb : b < 32) (j : Nat) :
    (carryDown v s j).getLsbD b = (decide (32 ≤ b + s) && bitAt v (32 * j + b + s)) := by
  have hcarry : carryDown v s j = wordAt v (j + 1) <<< (32 - s) := by
    unfold carryDown
    split
    case isTrue => rfl
    case isFalse h => rw [wordAt_of_length_le (by omega), BitVec.zero_shiftLeft]
  rw [hcarry, BitVec.getLsbD_shiftLeft, decide_eq_true hb, Bool.true_and]
  by_cases hsource : 32 ≤ b + s
  · have hindex : 32 * (j + 1) + (b - (32 - s)) = 32 * j + b + s := by omega
    have hge : ¬ b < 32 - s := by omega
    rw [getLsbD_wordAt v (by omega), hindex]
    simp [hge, hsource]
  · have hlt : b < 32 - s := by omega
    simp [hlt, hsource]

theorem subWordPass_up (v : BitSet) {s : Nat} (hs : s < 32) : subWordPass v s true = shiftValue v (s : Int) := by
  unfold subWordPass
  split
  case isTrue hzero => rw [hzero, Nat.cast_zero, shiftValue_zero]
  case isFalse =>
    refine value_ext_bits (by simp) fun i hi => ?_
    rw [if_pos rfl, length_ofWords] at hi
    rw [if_pos rfl, bitAt_ofWords _ hi, bitAt_shiftValue_up, BitVec.getLsbD_or, BitVec.getLsbD_shiftLeft,
      getLsbD_carryUp v hs]
    have hsum : 32 * (i / 32) + i % 32 - s = i - s := by omega
    by_cases hb : i % 32 < s
    · have hsource : (0 < i / 32) ↔ (s ≤ i) := by omega
      simp [hb, hi, hsum, hsource]
    · have hindex : 32 * (i / 32) + (i % 32 - s) = i - s := by omega
      have hsi : s ≤ i := by omega
      rw [getLsbD_wordAt v (by omega), hindex]
      simp [hb, hi, hsi, Nat.mod_lt]

theorem subWordPass_down (v : BitSet) {s : Nat} (hs : s < 32) :
    subWordPass v s false = shiftValue v (-(s : Int)) := by
  unfold subWordPass
  split
  case isTrue hzero => rw [hzero, Nat.cast_zero, neg_zero, shiftValue_zero]
  case isFalse =>
    refine value_ext_bits (by simp) fun i hi => ?_
    rw [if_neg Bool.false_ne_true, length_ofWords] at hi
    rw [if_neg Bool.false_ne_true, bitAt_ofWords _ hi, bitAt_shiftValue_down, BitVec.getLsbD_or,
      BitVec.getLsbD_ushiftRight, getLsbD_carryDown v hs (Nat.mod_lt i (by decide))]
    have hsum : 32 * (i / 32) + i % 32 + s = i + s := by omega
    by_cases hb : 32 ≤ i % 32 + s
    · simp [hb, hsum, BitVec.getLsbD_of_ge, show 32 ≤ s + i % 32 by omega]
    · have hindex : 32 * (i / 32) + (s + i % 32) = i + s := by omega
      rw [getLsbD_wordAt v (by omega), hindex]
      simp [hb]

theorem wholeWordPass_up (t : BitSet) (k : Nat) :
    wholeWordPass t k true = shiftValue t ((32 * k : Nat) : Int) := by
  refine value_ext_bits (by simp) fun i hi => ?_
  rw [length_wholeWordPass] at hi
  rw [wholeWordPass, if_pos rfl, bitAt_ofWords _ hi, bitAt_shiftValue_up]
  have hsource : 32 * k ≤ i ↔ k ≤ i / 32 := by omega
  by_cases hk : k ≤ i / 32
  · have hindex : 32 * (i / 32 - k) + i % 32 = i - 32 * k := by omega
    rw [if_pos hk, getLsbD_wordAt t (Nat.mod_lt i (by decide)), hindex]
    simp [hsource, hk, hi]
  · simp [hsource, hk]

theorem wholeWordPass_down (t : BitSet) (k : Nat) :
    wholeWordPass t k false = shiftValue t (-((32 * k : Nat) : Int)) := by
  refine value_ext_bits (by simp) fun i hi => ?_
  rw [length_wholeWordPass] at hi
  have hword : (if i / 32 + k < t.length then wordAt t (i / 32 + k) else 0#32) = wordAt t (i / 32 + k) := by
    split
    case isTrue => rfl
    case isFalse h => rw [wordAt_of_length_le (by omega)]
  have hindex : 32 * (i / 32 + k) + i % 32 = i + 32 * k := by omega
  rw [wholeWordPass, if_neg Bool.false_ne_true, bitAt_ofWords _ hi, hword,
    getLsbD_wordAt t (Nat.mod_lt i (by decide)), hindex, bitAt_shiftValue_down]

theorem shiftByWords_up (v : BitSet) {d : Nat} (hd : 0 < d) : shiftByWords v (d : Int) = shiftValue v (d : Int) := by
  have hsign : decide (0 < (d : Int)) = true := decide_eq_true (by omega)
  calc shiftByWords v (d : Int)
      = wholeWordPass (subWordPass v (d % 32) true) (d / 32) true := by
        rw [shiftByWords, hsign, subShift, wholeWords, Int.natAbs_natCast]
    _ = shiftValue (shiftValue v ((d % 32 : Nat) : Int)) ((32 * (d / 32) : Nat) : Int) := by
        rw [wholeWordPass_up, subWordPass_up v (Nat.mod_lt d (by decide))]
    _ = shiftValue v (d : Int) := by rw [shiftValue_up_up, Nat.mod_add_div]

theorem shiftByWords_down (v : BitSet) (d : Nat) : shiftByWords v (-(d : Int)) = shiftValue v (-(d : Int)) := by
  have hsign : decide (0 < -(d : Int)) = false := decide_eq_false (by omega)
  calc shiftByWords v (-(d : Int))
      = wholeWordPass (subWordPass v (d % 32) false) (d / 32) false := by
        rw [shiftByWords, hsign, subShift, wholeWords, Int.natAbs_neg, Int.natAbs_natCast]
    _ = shiftValue (shiftValue v (-((d % 32 : Nat) : Int))) (-((32 * (d / 32) : Nat) : Int)) := by
        rw [wholeWordPass_down, subWordPass_down v (Nat.mod_lt d (by decide))]
    _ = shiftValue v (-(d : Int)) := by rw [shiftValue_down_down, Nat.mod_add_div]

/-- Settles O45: each pass is a shift in the direction of `c`, and the two magnitudes add to `|c|`. -/
theorem wordPassesEqualShift : Obligations.WordPassesEqualShift := by
  intro v c hpos _
  obtain ⟨d, rfl | rfl⟩ := c.eq_nat_or_neg
  · exact shiftByWords_up v (by simpa using hpos)
  · exact shiftByWords_down v d

/-! ### The flat bus -/

/-- Settles O47: bus bit `i` is value bit `i`, and the arithmetic moves the bits of a natural as SHIFT does. -/
theorem shiftScalesTheFlatBus : Obligations.ShiftScalesTheFlatBus := by
  refine fun v d => ⟨Nat.eq_of_testBit_eq fun i => ?_, Nat.eq_of_testBit_eq fun i => ?_⟩
  · rw [testBit_toBus, bitAt_shiftValue_up, Nat.testBit_mod_two_pow, Nat.testBit_mul_two_pow, testBit_toBus,
      Bool.decide_and, Bool.and_left_comm, Bool.and_assoc, bitCount]
  · rw [testBit_toBus, bitAt_shiftValue_down, Nat.testBit_div_two_pow, testBit_toBus, Nat.add_comm]

/-! ### The command -/

theorem encodedWriter_shift : EncodedWriter 0x14#8 0x34#8 (fun _ wb c => .shift wb c.arg) :=
  encodedWriter_of_fields 0x14#5 (fun _ _ _ => rfl) (fun _ _ _ => rfl) (fun _ _ _ _ => rfl) (by simp [Instr.format])

theorem exec_shift (wb : Bool) (arg : Word) (s : State) :
    exec (.shift wb arg) s = .next (presentVec wb (shiftValue s.w (sint32 arg)) s) := rfl

/-- The result of SHIFT is shown as every class-W result is; no `ARG` raises an error (R196). -/
theorem shift_showsVec (wb : Bool) (arg : Word) (s : State) :
    ShowsVec wb (shiftValue s.w (sint32 arg)) s (presentVec wb (shiftValue s.w (sint32 arg)) s) :=
  presentVec_showsVec wb (length_shiftValue s.w _)

/-- Settles O44: R190's value, by its bits and in its two special cases, is what SHIFT presents. -/
theorem shiftMovesEveryBit : Obligations.ShiftMovesEveryBit := by
  refine ⟨encodedWriter_shift, fun s wb arg =>
    ⟨_, _, exec_shift wb arg s, shift_showsVec wb arg s, fun i hi => ?_, fun hzero => ?_, shiftValue_of_le⟩⟩
  · rw [bitAt_shiftValue hi, bitCount]
    split
    case isTrue h => rw [decide_eq_true (by omega), Bool.true_and]
    case isFalse h => rw [decide_eq_false (by omega), Bool.false_and]
  · rw [hzero, shiftValue_zero]

/-- R199: the magnitude of the least count is past the last bit of every engine that can be built (R5). -/
theorem bitCount_le_natAbs_sint32_min {s : State} (hb : s.Built) :
    32 * s.w.length ≤ (sint32 0x80000000#32).natAbs := by
  obtain ⟨-, hmax⟩ := hb
  have hmin : (sint32 0x80000000#32).natAbs = 2147483648 := by decide
  rw [hmin]
  unfold Config.maxWordCount at hmax
  omega

theorem shift_showsVec_zero (wb : Bool) {arg : Word} {s : State} (h : 32 * s.w.length ≤ (sint32 arg).natAbs) :
    ShowsVec wb (List.replicate s.w.length 0#32) s (presentVec wb (shiftValue s.w (sint32 arg)) s) :=
  shiftValue_of_le h ▸ shift_showsVec wb arg s

/-- Settles O46: a presented value is no error, and `ARG = 0x80000000` is a case of the saturating counts. -/
theorem shiftNeverRaisesAndSaturates : Obligations.ShiftNeverRaisesAndSaturates := fun s wb arg =>
  ⟨_, exec_shift wb arg s, rfl, rfl, shift_showsVec_zero wb,
    fun hb harg => shift_showsVec_zero wb (harg ▸ bitCount_le_natAbs_sint32_min hb)⟩

/-! ### There and back, and the vacated end -/

/-- Up and down again: only a bit that went past the end is lost (R198). -/
theorem bitAt_shiftValue_up_down (v : BitSet) (d i : Nat) :
    bitAt (shiftValue (shiftValue v (d : Int)) (-(d : Int))) i =
      if 32 * v.length - d ≤ i then false else bitAt v i := by
  rw [bitAt_shiftValue_down, bitAt_shiftValue_up, Nat.add_sub_cancel, bitCount]
  split
  case isTrue h => rw [decide_eq_false (by omega), Bool.false_and]
  case isFalse h => rw [decide_eq_true (by omega), Bool.true_and]

/-- Down and up again: only a bit that went below index 0 is lost (R198). -/
theorem bitAt_shiftValue_down_up (v : BitSet) {d i : Nat} (hi : i < 32 * v.length) :
    bitAt (shiftValue (shiftValue v (-(d : Int))) (d : Int)) i = if i < d then false else bitAt v i := by
  rw [bitAt_shiftValue_up, bitAt_shiftValue_down, length_shiftValue, bitCount]
  split
  case isTrue h => rw [decide_eq_false (by omega), Bool.false_and]
  case isFalse h => rw [decide_eq_true (by omega), Bool.true_and, Nat.sub_add_cancel (by omega)]

/-- Settles O49: a mutator form leaves in `W` the value it presents, so the second SHIFT shifts the first one's. -/
theorem shiftRoundTrips : Obligations.ShiftRoundTrips := by
  intro s up down d _ hup hdown
  refine ⟨⟨_, _, exec_shift true up s, exec_shift true down _, by simp, fun i _ => ?_⟩,
    ⟨_, _, exec_shift true down s, exec_shift true up _, by simp, fun i hi => ?_⟩⟩
  · simpa [hup, hdown] using bitAt_shiftValue_up_down s.w d i
  · simpa [hup, hdown] using bitAt_shiftValue_down_up s.w hi

/-- Settles O50: the vacated end is the indices that have no source below it (`c > 0`) or above it (`c < 0`). -/
theorem shiftZeroFillsTheVacatedEnd : Obligations.ShiftZeroFillsTheVacatedEnd := by
  refine fun s wb arg _ _ => ⟨_, exec_shift wb arg s, ?_⟩
  obtain ⟨d, hc | hc⟩ := (sint32 arg).eq_nat_or_neg
  · refine ⟨fun _ i hi => ?_, fun hneg => absurd hneg (by omega)⟩
    have hvacated : ¬ (d ≤ i ∧ i < bitCount s.w.length) := by omega
    rw [presentVec_out, hc, bitAt_shiftValue_up, decide_eq_false hvacated, Bool.false_and]
  · refine ⟨fun hpos => absurd hpos (by omega), fun _ i _ hi => ?_⟩
    have hvacated : bitCount s.w.length ≤ i + d := by
      unfold bitCount
      omega
    rw [presentVec_out, hc, bitAt_shiftValue_down, bitAt_of_le hvacated]

end Sys2Proof.Machine
end

section
/-! EQ and HASH (spec/45_compare_hash.md R220-R223). EQ presents the comparator's answer, which on values of `N` words is
whether they are equal. HASH presents a fold, which is known by what each word adds to the hash of the words before it. -/

namespace Sys2Proof.Machine

/-! ### EQ -/

theorem encodedReader_eq : EncodedReader 0x18#8 0x38#8 (fun n c => .eq (maskValue n c)) :=
  encodedReader_of_fields 0x18#5 (fun _ _ => rfl) (fun _ _ => rfl) (by simp [Instr.format]) fun _ _ _ => rfl

theorem exec_eq (m : BitSet) (s : State) : exec (.eq m) s = .next (presentFlag (equalValues s.w m) s) := rfl

/-- Settles O41: EQ presents the comparator's answer on `RES_FLAG` alone. -/
theorem eqComparesEveryWord : Obligations.EqComparesEveryWord :=
  ⟨encodedReader_eq, fun s m _ => ⟨_, _, exec_eq m s, presentFlag_showsFlag _ s, equalValues_iff s.w m⟩⟩

/-! ### HASH -/

theorem encodedReader_hash : EncodedReader 0x1D#8 0x3D#8 (fun _ _ => .hash) :=
  encodedReader_of_fields 0x1D#5 (fun _ _ => rfl) (fun _ _ => rfl) (by simp [Instr.format]) (by simp [Instr.format])

theorem exec_hash (s : State) : exec .hash s = .next (presentHash (hashValue s.w) s) := rfl

theorem presentHash_showsHash (h : Word) (s : State) : ShowsHash h s (presentHash h s) := by
  simp [ShowsHash, Ends]

/-- One round of R221's loop, on naturals; the multiplier and the word hash are R5's defaults (log entry 2). -/
theorem toNat_hashStage (h x : Word) : (hashStage h x).toNat = (31 * h.toNat + x.toNat) % 2 ^ 32 := by
  simp [hashStage, Config.hashMult, Config.wordHash]

/-- The accumulator `h` of R221's loop after its first `j` rounds. -/
def hashAfter (v : BitSet) (j : Nat) : Nat := (hashValue (v.take j)).toNat

theorem hashAfter_zero (v : BitSet) : hashAfter v 0 = 17 := rfl

theorem hashAfter_succ {v : BitSet} {j : Nat} (hj : j < v.length) :
    hashAfter v (j + 1) = (31 * hashAfter v j + (wordAt v j).toNat) % 2 ^ 32 := by
  have hround : hashValue (v.take (j + 1)) = hashStage (hashValue (v.take j)) (wordAt v j) := by
    rw [wordAt_of_lt hj, hashValue, List.take_succ_eq_append_getElem hj, List.foldl_concat, hashValue]
  rw [hashAfter, hround, toNat_hashStage, hashAfter]

theorem ofNat_hashAfter_length (v : BitSet) : BitVec.ofNat 32 (hashAfter v v.length) = hashValue v := by
  rw [hashAfter, List.take_length, BitVec.ofNat_toNat, BitVec.setWidth_eq]

/-- Settles O42: the naturals of R221's loop are the accumulator after each round, and HASH presents the last one. -/
theorem hashFoldsWordsInOrder : Obligations.HashFoldsWordsInOrder :=
  ⟨encodedReader_hash, fun s =>
    ⟨hashAfter s.w, _, hashAfter_zero s.w, fun _ => hashAfter_succ, exec_hash s,
      by rw [ofNat_hashAfter_length]; exact presentHash_showsHash _ s⟩⟩

/-! ### Equality as a relation, and the hash of equal values -/

theorem equalValues_comm {v m : BitSet} (h : v.length = m.length) : equalValues v m = equalValues m v := by
  rw [Bool.eq_iff_iff, equalValues_iff_eq h, equalValues_iff_eq h.symm, eq_comm]

/-- Settles O43: on values of `N` words EQ's flag is equality, and HASH after LOAD reads nothing but the loaded value. -/
theorem equalityIsAnEquivalenceAndHashRespectsIt : Obligations.EqualityIsAnEquivalenceAndHashRespectsIt := by
  intro s m k hm _
  have heq : equalValues s.w m = true ↔ s.w = m := equalValues_iff_eq hm.symm
  refine ⟨_, _, _, _, _, _, _, _, exec_eq s.w s, exec_eq m s, exec_eq s.w _, exec_eq k _, exec_eq k s,
    exec_load true hm, exec_hash s, exec_hash _, ?reflexive, ?symmetric, ?transitive, ?hash⟩
  case reflexive => exact (equalValues_iff_eq rfl).mpr rfl
  case symmetric => exact equalValues_comm hm.symm
  case transitive => exact fun hwm hmk => (congrArg (equalValues · k) (heq.mp hwm)).trans hmk
  case hash => exact fun hwm => congrArg hashValue (heq.mp hwm)

end Sys2Proof.Machine
end

section
/-! The two errors (spec/60_exceptions.md R250-R255). IllegalCommand is decided by the decoder, IndexOutOfRange by the
bounds check of the single-bit commands, which are the commands of format FI, and nothing else raises an error. What an
error leaves behind is `raise`, which touches the record of outputs only, and no step reads that. -/

namespace Sys2Proof.Machine

/-! ### What raises IndexOutOfRange -/

/-- A single-bit command, the only kind of format FI, whose index fails the bounds check of an engine of `n` words
(R121, R252). -/
def IndexFails (n : Nat) (i : Instr) : Prop := i.format = .fi ∧ ¬ ValidIndex n i.argBus

theorem singleBit_of_format_fi {i : Instr} (h : i.format = .fi) :
    i = .get i.argBus ∨ ∃ wb, i = .set wb i.argBus ∨ i = .unset wb i.argBus ∨ i = .flip wb i.argBus := by
  cases i
  case get arg => exact .inl rfl
  case set wb arg => exact .inr ⟨wb, .inl rfl⟩
  case unset wb arg => exact .inr ⟨wb, .inr (.inl rfl)⟩
  case flip wb arg => exact .inr ⟨wb, .inr (.inr rfl)⟩
  all_goals exact nomatch h

theorem exec_err_of_format_ne_fi {i : Instr} (h : i.format ≠ .fi) (s : State) :
    ∃ t, exec i s = .next t ∧ t.out.err = false := by
  cases i
  case get | set | unset | flip => exact absurd rfl h
  all_goals exact ⟨_, rfl, rfl⟩

/-- A legal command raises IndexOutOfRange exactly when its index fails, and otherwise reports no error (R252). -/
theorem exec_error_cases (i : Instr) (s : State) :
    ∃ t, exec i s = .next t ∧ ((IndexFails s.w.length i ∧ t = raise .indexOutOfRange s) ∨
      (¬ IndexFails s.w.length i ∧ t.out.err = false)) := by
  by_cases hfi : i.format = .fi
  · obtain ⟨result, hexec, herr⟩ := exec_eq_withIndex (singleBit_of_format_fi hfi) s
    by_cases hvalid : ValidIndex s.w.length i.argBus
    · rw [withIndex_of_valid hvalid] at hexec
      exact ⟨_, hexec, .inr ⟨fun hfails => hfails.2 hvalid, herr _⟩⟩
    · rw [withIndex_of_invalid hvalid] at hexec
      exact ⟨_, hexec, .inl ⟨⟨hfi, hvalid⟩, rfl⟩⟩
  · obtain ⟨t, hexec, herr⟩ := exec_err_of_format_ne_fi hfi s
    exact ⟨t, hexec, .inr ⟨fun hfails => hfi hfails.1, herr⟩⟩

/-! ### The errors of a presented command -/

/-- A presented command raises IllegalCommand when the decoder rejects it; else IndexOutOfRange when its index fails;
else no error, so code 0 (R250, R255). -/
theorem commandCycle_error_cases (c : Command) (s : State) :
    ∃ t, commandCycle c s = .next t ∧ ((illegalCmd c.cmd = true ∧ t = raise .illegalCommand s) ∨
      ∃ i, decode s.w.length c = .ok i ∧ ((IndexFails s.w.length i ∧ t = raise .indexOutOfRange s) ∨
        (¬ IndexFails s.w.length i ∧ t.out.err = false ∧ t.out.errCode = 0#2))) := by
  cases hd : decode s.w.length c with
  | error e => exact ⟨_, commandCycle_of_illegal hd, .inl ⟨(decode_error_iff _ c).mp ⟨e, hd⟩, rfl⟩⟩
  | ok i =>
    obtain ⟨t, hexec, herrors⟩ := exec_error_cases i s
    refine ⟨t, (commandCycle_of_legal hd).trans hexec, .inr ⟨i, rfl, herrors.imp_right ?_⟩⟩
    rintro ⟨hvalid, herr⟩
    obtain ⟨t', hexec', -, -, -, ⟨-, -, -, hcode, -⟩, -⟩ := exec_cases i s
    obtain rfl : t' = t := by simpa [hexec'] using hexec
    exact ⟨hvalid, herr, not_not.mp (mt hcode.mpr (by simp [herr]))⟩

/-- The same of a step that answered: a state it can answer on is one that an engine can be in. -/
theorem step_present_error_cases {s t : State} {c : Command} (h : step (s.present c) = .next t) :
    (illegalCmd c.cmd = true ∧ t = raise .illegalCommand s) ∨
      ∃ i, decode s.w.length c = .ok i ∧ ((IndexFails s.w.length i ∧ t = raise .indexOutOfRange s) ∨
        (¬ IndexFails s.w.length i ∧ t.out.err = false ∧ t.out.errCode = 0#2)) := by
  have hb : s.Built := (step_cases h).1
  obtain ⟨t', hcycle, herrors⟩ := commandCycle_error_cases c s
  obtain rfl : t' = t := by simpa [step_present hb, hcycle] using h
  exact herrors

/-! ### The failing commands by their `CMD` and `ARG` -/

theorem not_validIndex_iff (n : Nat) (arg : Word) :
    ¬ ValidIndex n arg ↔ sint32 arg < 0 ∨ 32 * (n : Int) ≤ sint32 arg := by
  unfold ValidIndex
  omega

theorem opcode_mem_singleBit_iff (i : Instr) :
    i.opcode.toNat ∈ [0x01, 0x02, 0x03, 0x04] ↔ i.format = .fi := by
  cases i <;> simp [Instr.opcode, Instr.format]

theorem illegalCmd_of_carries {n : Nat} {c : Command} {i : Instr} (h : c.Carries n i) : illegalCmd c.cmd = false := by
  rw [h.cmd, illegalCmd_encode]

theorem indexFails_iff_of_carries {n : Nat} {c : Command} {i : Instr} (h : c.Carries n i) :
    IndexFails n i ↔ opField c.cmd ∈ [0x01, 0x02, 0x03, 0x04] ∧
      (sint32 c.arg < 0 ∨ 32 * (n : Int) ≤ sint32 c.arg) := by
  have hop : opField c.cmd = i.opcode.toNat := by rw [h.cmd]; exact opField_cmdWord _ _
  rw [hop, opcode_mem_singleBit_iff, ← not_validIndex_iff]
  refine and_congr_right fun hfi => ?_
  rw [h.arg (.inl hfi)]

/-- Settles O12: the three ends of `commandCycle_error_cases` have the codes 2, 1 and 0, and exclude each other. -/
theorem errorCodesAreExact : Obligations.ErrorCodesAreExact := by
  intro s c hb
  obtain ⟨t, hcycle, herrors⟩ := commandCycle_error_cases c s
  refine ⟨t, (step_present hb c).trans hcycle, ?_⟩
  obtain ⟨hillegal, rfl⟩ | ⟨i, hd, hlegal⟩ := herrors
  · simp [hillegal, ErrorKind.code]
  · have hcarries := (decode_ok_iff _ c i).mp hd
    rw [← indexFails_iff_of_carries hcarries, illegalCmd_of_carries hcarries]
    obtain ⟨hfails, rfl⟩ | ⟨hvalid, herr, hcode⟩ := hlegal
    · simp [hfails, ErrorKind.code]
    · simp [hvalid, herr, hcode]

/-! ### What an error leaves behind -/

theorem raise_showsError (e : ErrorKind) (s : State) : ShowsError e.code s (raise e s) := by
  cases e
  case indexOutOfRange => exact raise_indexOutOfRange_showsError s
  case illegalCommand => exact raise_illegalCommand_showsError s

theorem ErrorKind.code_eq (e : ErrorKind) : e.code = 1#2 ∨ e.code = 2#2 := by
  cases e
  case indexOutOfRange => exact .inl rfl
  case illegalCommand => exact .inr rfl

theorem eq_raise_of_err {s t : State} {c : Command} (h : step (s.present c) = .next t) (herr : t.out.err = true) :
    ∃ e, t = raise e s := by
  obtain ⟨-, rfl⟩ | ⟨i, -, ⟨-, rfl⟩ | ⟨-, hnone, -⟩⟩ := step_present_error_cases h
  · exact ⟨_, rfl⟩
  · exact ⟨_, rfl⟩
  · exact absurd (herr.symm.trans hnone) (by decide)

/-- An error is not latched: the next cycle reads `W` and the host's list, which `raise` leaves alone (R27, R254). -/
theorem step_raise (e : ErrorKind) (s : State) : step (raise e s) = step s :=
  stepDependsOnWAndInputsOnly.1 _ _ rfl rfl

/-- Settles O13: the state after an error is `raise` of the state before it, and presenting a command after it
commutes with `raise`. -/
theorem errorsOnlyReport : Obligations.ErrorsOnlyReport := by
  intro s t c hstep herr
  obtain ⟨e, rfl⟩ := eq_raise_of_err hstep herr
  exact ⟨raise_showsError e s, e.code_eq, step_raise e s, fun d => step_raise e (s.present d)⟩

/-! ### Priority -/

theorem format_fi_of_errCode_one {s t : State} {c : Command} (h : step (s.present c) = .next t)
    (hcode : t.out.errCode = 1#2) : ∃ i, decode s.w.length c = .ok i ∧ i.format = .fi := by
  obtain ⟨-, rfl⟩ | ⟨i, hd, ⟨⟨hfi, -⟩, -⟩ | ⟨-, -, hnone⟩⟩ := step_present_error_cases h
  · exact absurd hcode (by simp [ErrorKind.code])
  · exact ⟨i, hd, hfi⟩
  · exact absurd (hcode.symm.trans hnone) (by decide)

/-- Settles O14: `CMD = 0x21` is GET with `WB = 1`, illegal on R77's third ground, and the reset cycle never comes to
the command. -/
theorem errorPriority : Obligations.ErrorPriority := by
  obtain ⟨-, hraises, -⟩ := illegalEncodingsAreExactlyThoseListed
  have hexample : illegalCmd 0x21#8 = true := by decide
  exact ⟨fun s _ hb => hraises s _ hb hexample, hraises, fun _ _ _ h hcode => format_fi_of_errCode_one h hcode,
    fun s _ _ hb => ⟨resetCycle s, (step_of_driven hb _).trans (drivenCycle_of_reset rfl s), rfl, rfl, rfl⟩⟩

end Sys2Proof.Machine
end

section
/-! Reset and what follows it (spec/70_reset_and_hazards.md R280-R283), and that no cycle with its inputs at defined
levels stops the engine (R288). A reset cycle leaves the reset state but for the host's list and the record of outputs,
and no step reads that record (R27). -/

namespace Sys2Proof.Machine

/-! ### The reset state -/

/-- The reset state is what an idle cycle leaves of it: `W = ZERO` and no output but `Q` named (R281). -/
theorem idle_resetOf (n : Nat) : idle (State.resetOf n) = State.resetOf n := by
  simp [State.resetOf, idle, quiet]

/-- Settles O20: `ZERO` is the words 0, and the outputs at reset are those of an idle cycle on `ZERO`. -/
theorem resetStateValues : Obligations.ResetStateValues := by
  refine ⟨fun n => ⟨zeros_eq_replicate n, zeros_eq_replicate n, ?_⟩, Config.wordCount, by decide, by decide, rfl⟩
  have hshows := idle_showsNothing (State.resetOf n)
  rwa [idle_resetOf] at hshows

/-! ### Reset cycles -/

/-- The reset branch of R25, whatever else is on the ports. -/
theorem step_of_reset {s : State} {p : PortInputs} {rest : List HostCycle} (hb : s.Built)
    (hp : s.pending = .driven p :: rest) (hr : p.rst = true) :
    step s = .next (resetCycle { s with pending := rest }) := by
  calc step s
      = drivenCycle p s.advance := by rw [step_of_built hb, hp]; rfl
    _ = .next (resetCycle s.advance) := drivenCycle_of_reset hr _
    _ = .next (resetCycle { s with pending := rest }) := by rw [State.advance_of_cons hp]

theorem resetCycle_ends (s : State) :
    Ends s (resetCycle s) (zeros s.w.length) (zeros s.w.length) false false 0#32 false 0#2 := by
  simp [Ends]

theorem resetCycle_built {s : State} (hb : s.Built) : (resetCycle s).Built := by
  unfold State.Built
  rwa [resetCycle_w, length_zeros]

/-- After a reset cycle the engine goes on as the reset state does: both hold ZERO in `W` (R280, R283). -/
theorem step_resetCycle (s : State) :
    step (resetCycle s) = step { State.resetOf s.w.length with pending := s.pending } :=
  stepDependsOnWAndInputsOnly.1 _ _ rfl rfl

/-- Each reset cycle uses up one cycle of the host's list and keeps the word count. The run ends with the reset cycle of
some `u`: of `s` itself, or of an engine that the cycles before it have cleared already. -/
theorem run_of_reset (c : HostCycle) (cs rest : List HostCycle) (s : State) (hb : s.Built)
    (hp : s.pending = c :: cs ++ rest) (hreset : ∀ x ∈ c :: cs, ∃ p, x = .driven p ∧ p.rst = true) :
    ∃ u, Host.Core.run Sys2Proof.core (cs.length + 1) s = .next (resetCycle u) ∧
      u.w.length = s.w.length ∧ u.pending = rest := by
  obtain ⟨⟨p, rfl, hr⟩, htail⟩ := List.forall_mem_cons.mp hreset
  rw [run_succ_of_step _ (step_of_reset hb hp hr)]
  cases cs with
  | nil => exact ⟨_, rfl, rfl, rfl⟩
  | cons d cs =>
    obtain ⟨u, hrun, hlength, hpending⟩ :=
      run_of_reset d cs rest (resetCycle { s with pending := d :: cs ++ rest }) (resetCycle_built hb) rfl htail
    exact ⟨u, hrun, by rw [hlength, resetCycle_w, length_zeros], hpending⟩

/-- Settles O11: one cycle is the reset branch; by recursion on the list, a run of them ends with it too, and the step
after it is the reset state's. -/
theorem resetCyclesClearW : Obligations.ResetCyclesClearW := by
  refine ⟨fun s p rest hb hp hr => ⟨_, step_of_reset hb hp hr, resetCycle_ends _⟩, ?_⟩
  intro cs rest s hb hp hne hreset
  obtain ⟨c, cs, rfl⟩ := List.exists_cons_of_ne_nil hne
  obtain ⟨u, hrun, hlength, rfl⟩ := run_of_reset c cs rest s hb hp hreset
  refine ⟨resetCycle u, hrun, ?_⟩
  rw [← hlength]
  exact ⟨rfl, rfl, rfl, step_resetCycle u⟩

/-- Settles O25: the free words of a power-up are `n` in number, and a reset cycle reads nothing else of them. -/
theorem bootFromPowerUp : Obligations.BootFromPowerUp := by
  intro k n p rest h1 h2 hr
  have hlength : (State.powerUp k n).w.length = n := by simp
  have hb : State.Built { State.powerUp k n with pending := .driven p :: rest } := by
    unfold State.Built
    rw [hlength]
    exact ⟨h1, h2⟩
  have hafter := step_resetCycle { State.powerUp k n with pending := rest }
  rw [hlength] at hafter
  exact ⟨_, step_of_reset hb rfl hr, congrArg zeros hlength, rfl, hafter⟩

/-! ### Runs at defined levels -/

theorem nextCycle_snd (l : List HostCycle) : (nextCycle l).2 = l.tail := by
  cases l <;> rfl

theorem State.HostKeepsLevels.of_tail {s t : State} (hl : s.HostKeepsLevels) (ht : t.pending = s.pending.tail) :
    t.HostKeepsLevels :=
  fun hmem => hl (List.mem_of_mem_tail (ht ▸ hmem))

/-- A step at defined levels completes, uses up one cycle of the host's list if there is one (log entry 3), and keeps
the engine one that can be built. -/
theorem step_of_hostKeepsLevels {s : State} (hb : s.Built) (hl : s.HostKeepsLevels) :
    ∃ t, step s = .next t ∧ t.Built ∧ t.pending = s.pending.tail := by
  obtain ⟨p, hnext⟩ := nextCycle_driven (l := s.pending) fun rest hp => hl (hp ▸ List.mem_cons_self)
  obtain ⟨t, hstep, hpending, hlength, hgood⟩ := step_completes hb hnext
  exact ⟨t, hstep, (inv_of_length_eq hb hlength hgood).1, hpending.trans (nextCycle_snd _)⟩

/-- Settles O24, by induction on the number of steps: each one keeps what the next one needs. -/
theorem everyRunCompletes : Obligations.EveryRunCompletes := by
  intro k
  induction k with
  | zero => exact fun s hb _ => ⟨s, rfl, hb, rfl⟩
  | succ k ih =>
    intro s hb hl
    obtain ⟨t, hstep, hbuilt, htail⟩ := step_of_hostKeepsLevels hb hl
    obtain ⟨u, hrun, hu, hdrop⟩ := ih t hbuilt (hl.of_tail htail)
    exact ⟨u, (run_succ_of_step k hstep).trans hrun, hu, by rw [hdrop, htail, List.drop_tail]⟩

end Sys2Proof.Machine
end
